-- ==== Sys2Proof/Config.lean ====
section
/-! DEFINITION. The configuration layer: every numeric literal the document gives (00_scope.md R6, R7), each once, so that an
audit can change it in one place, and the open parameters (92_eei_decisions.md D5, D12).
A width stands here as the type it gives; everywhere else the types are named and a width is inferred from them. -/

namespace Sys2Proof.Config

/-! ### Widths and sizes (R6) -/

/-- `XLEN`: 16 bits, a general register, the PC, an address, a memory word, an instruction word. -/
abbrev WordBits := BitVec 16

/-- An input or output character: 8 bits (10_state.md R35, D10). -/
abbrev CharBits := BitVec 8

/-- The trap vector: 8 bits (30_encoding.md R65, R75). -/
abbrev VectBits := BitVec 8

/-- The opcode: 4 bits (30_encoding.md R61). -/
abbrev OpcodeBits := BitVec 4

/-- The condition code: 3 bits (10_state.md R26). -/
abbrev CondBits := BitVec 3

/-- A register field: 3 bits (30_encoding.md R63). -/
abbrev RegBits := BitVec 3

/-- `NREG`: 8 general registers, R0 to R7 (10_state.md R21). -/
abbrev RegIndex := Fin 8

/-- The general registers, one value an index (10_state.md R20, R21). -/
abbrev RegFile (α : Type) := Vector α 8

/-- imm5: 5 bits (30_encoding.md R62, R65). -/
abbrev Imm5Bits := BitVec 5

/-- offset6: 6 bits (30_encoding.md R62, R65). -/
abbrev Off6Bits := BitVec 6

/-- offset9: 9 bits (30_encoding.md R62, R65). -/
abbrev Off9Bits := BitVec 9

/-- offset11: 11 bits (30_encoding.md R62, R65). -/
abbrev Off11Bits := BitVec 11

/-- The number of memory words (10_state.md R33, 20_memory.md R40). -/
abbrev memWords : Nat := 65536

/-! ### Addresses, condition values and trap vectors (R6) -/

/-- `PC_START`, the PC after reset (10_state.md R37). -/
def pcStart : WordBits := 0x3000#_

/-- `KBSR`, the keyboard status address, the only address whose read has a side effect (20_memory.md R43, R52). -/
def kbsr : WordBits := 0xFE00#_

/-- `KBDR`, the keyboard data address (20_memory.md R45, R52). -/
def kbdr : WordBits := 0xFE02#_

/-- POSITIVE, one of the three values of COND (10_state.md R26). -/
def condP : CondBits := 1#_

/-- ZERO, one of the three values of COND (10_state.md R26). -/
def condZ : CondBits := 2#_

/-- NEGATIVE, one of the three values of COND (10_state.md R26). -/
def condN : CondBits := 4#_

/-- The trap vector of GETC (30_encoding.md R75). -/
def vectGetc : VectBits := 0x20#_

/-- The trap vector of OUT (30_encoding.md R75). -/
def vectOut : VectBits := 0x21#_

/-- The trap vector of PUTS (30_encoding.md R75). -/
def vectPuts : VectBits := 0x22#_

/-- The trap vector of IN (30_encoding.md R75). -/
def vectIn : VectBits := 0x23#_

/-- The trap vector of PUTSP (30_encoding.md R75). -/
def vectPutsp : VectBits := 0x24#_

/-- The trap vector of HALT (30_encoding.md R75). -/
def vectHalt : VectBits := 0x25#_

/-! ### Reset values and open parameters -/

/-- What a memory word that nothing has written reads as: memory is "zero-initialized" (10_state.md R37). -/
def memReset : WordBits := 0x0000#_

/-- `GPR_RESET`: R0 to R7 after reset.
DESIGN CHOICE, unsafe (log 1): the spec leaves the eight values open (D5) and the model names zero.
No statement rests on it: statements about reset speak of `State.resetWith`, for every value. -/
def gprReset : RegFile WordBits := Vector.replicate _ 0x0000#_

/-- `IN_PROMPT`: the characters the IN trap emits first (43_trap.md R126, D12).
A free value, safe (log 2): a constant with no body, so a statement holds for every text. -/
opaque inPrompt : List CharBits

/-- `HALT_NOTICE`: the characters the HALT trap emits (43_trap.md R128, D12).
A free value, safe (log 2): a constant with no body, so a statement holds for every text. -/
opaque haltNotice : List CharBits

end Sys2Proof.Config
end

