-- ==== Sys2Proof/Word.lean ====
section
/-! DEFINITION. The words of the core under the names the model uses (00_scope.md R6, R8; 30_encoding.md R63, R65). Their
widths stand in Config. -/

namespace Sys2Proof

/-- A general register, the PC, a memory word, an address, an instruction word (R6, R8). -/
abbrev Word := Config.WordBits

/-- A character of the console (10_state.md R35). -/
abbrev Byte := Config.CharBits

/-- A trap vector (30_encoding.md R75). -/
abbrev Vect := Config.VectBits

/-- The number of an opcode (30_encoding.md R61). -/
abbrev OpcodeNumber := Config.OpcodeBits

/-- The condition code (10_state.md R26). -/
abbrev Cond := Config.CondBits

/-- A register index: "all register indices are statically valid (3-bit fields)" (10_state.md R21). -/
abbrev Reg := Config.RegIndex

/-- The immediate of ADD and AND. -/
abbrev Imm5 := Config.Imm5Bits

/-- The offset of LDR and STR. -/
abbrev Off6 := Config.Off6Bits

/-- The offset of BR, LD, LDI, LEA, ST and STI. -/
abbrev Off9 := Config.Off9Bits

/-- The offset of JSR. -/
abbrev Off11 := Config.Off11Bits

end Sys2Proof
end

