-- ==== Sys2Proof/Syntax.lean ====
section
/-! DEFINITION. The instructions: one constructor for every row of spec/opcode_table.json (30_encoding.md R66, R75, R74). -/

namespace Sys2Proof

/-- An instruction, its operands as the fields of the word (30_encoding.md R63 to R65), not yet extended.
The first 19 constructors are the rows of kind `instruction`, the results of R72.
The next 7 are the rows of kind `trap-routine` and the last 2 those of kind `alias`: other names for words of
TRAP, JMP and BR (log 8). -/
inductive Instr where
  /-- BR (41_control.md R91). -/
  | br (n z p : Bool) (off : Off9)
  /-- ADD, register form (40_operate.md R80). -/
  | addReg (dr sr1 sr2 : Reg)
  /-- ADD, immediate form (40_operate.md R81). -/
  | addImm (dr sr1 : Reg) (imm : Imm5)
  /-- LD (42_load_store.md R101). -/
  | ld (dr : Reg) (off : Off9)
  /-- ST (42_load_store.md R105). -/
  | st (sr : Reg) (off : Off9)
  /-- JSR (41_control.md R94). -/
  | jsr (off : Off11)
  /-- JSRR (41_control.md R95). -/
  | jsrr (base : Reg)
  /-- AND, register form (40_operate.md R82). -/
  | andReg (dr sr1 sr2 : Reg)
  /-- AND, immediate form (40_operate.md R83). -/
  | andImm (dr sr1 : Reg) (imm : Imm5)
  /-- LDR (42_load_store.md R103). -/
  | ldr (dr base : Reg) (off : Off6)
  /-- STR (42_load_store.md R107). -/
  | str (sr base : Reg) (off : Off6)
  /-- RTI, a defined no-op (44_reserved.md R140). -/
  | rti
  /-- NOT (40_operate.md R85). -/
  | notReg (dr sr : Reg)
  /-- LDI (42_load_store.md R102). -/
  | ldi (dr : Reg) (off : Off9)
  /-- STI (42_load_store.md R106). -/
  | sti (sr : Reg) (off : Off9)
  /-- JMP (41_control.md R92). -/
  | jmp (base : Reg)
  /-- RES, the reserved opcode, a defined no-op (44_reserved.md R141). -/
  | res
  /-- LEA (42_load_store.md R104). -/
  | lea (dr : Reg) (off : Off9)
  /-- TRAP with any vector (43_trap.md R120). -/
  | trap (vect : Vect)
  /-- GETC, TRAP x20 (43_trap.md R123). -/
  | getc
  /-- OUT, TRAP x21 (43_trap.md R124). -/
  | out
  /-- PUTS, TRAP x22 (43_trap.md R125). -/
  | puts
  /-- IN, TRAP x23 (43_trap.md R126). -/
  | inChar
  /-- PUTSP, TRAP x24 (43_trap.md R127). -/
  | putsp
  /-- HALT, TRAP x25 (43_trap.md R128). -/
  | halt
  /-- TRAP with a vector outside 0x20 to 0x25 (43_trap.md R129). -/
  | trapUnrecognised (vect : Vect)
  /-- RET, JMP R7 (41_control.md R93). -/
  | ret
  /-- NOP, BR with no condition bit (30_encoding.md R70, R74). -/
  | nop (off : Off9)
  deriving DecidableEq, Repr

end Sys2Proof
end

