-- ==== Sys2Proof/WellFormed.lean ====
section
/-! DEFINITION. When a term of `Instr` is an instruction of the table.
The operand types already bound every field (3-bit registers, R63; field widths, R65), so one row alone needs a check:
`TRAP__unrecognised_vector` "matches only when none of the six trap-routine rows matches" (opcode_table.json). -/

namespace Sys2Proof

/-- The six vectors that name a routine (30_encoding.md R75). -/
def recognisedVect (v : Vect) : Bool :=
  v == Config.vectGetc || v == Config.vectOut || v == Config.vectPuts || v == Config.vectIn || v == Config.vectPutsp
    || v == Config.vectHalt

/-- The check: an unrecognised vector is none of the six (43_trap.md R129); everything else is well formed by its type. -/
def Instr.WellFormed : Instr → Bool
  | .br _ _ _ _ => true
  | .addReg _ _ _ => true
  | .addImm _ _ _ => true
  | .ld _ _ => true
  | .st _ _ => true
  | .jsr _ => true
  | .jsrr _ => true
  | .andReg _ _ _ => true
  | .andImm _ _ _ => true
  | .ldr _ _ _ => true
  | .str _ _ _ => true
  | .rti => true
  | .notReg _ _ => true
  | .ldi _ _ => true
  | .sti _ _ => true
  | .jmp _ => true
  | .res => true
  | .lea _ _ => true
  | .trap _ => true
  | .getc => true
  | .out => true
  | .puts => true
  | .inChar => true
  | .putsp => true
  | .halt => true
  | .trapUnrecognised v => !recognisedVect v
  | .ret => true
  | .nop _ => true

end Sys2Proof
end

