-- ==== Sys2Proof/Decode.lean ====
section
/-! DEFINITION. The decoder and the encoder (30_encoding.md).
The opcode numbers and the field positions are the published LC-3's, which the spec supplies under D1 and D2:
PRESUMED, unsafe (log 7). No word is illegal (R69), so the decoder has nothing to reject. -/

namespace Sys2Proof

/-! ### The opcode map -/

/-- The 16 opcodes (30_encoding.md R66). -/
inductive Opcode where
  | BR | ADD | LD | ST | JSR | AND | LDR | STR | RTI | NOT | LDI | STI | JMP | RES | LEA | TRAP
  deriving DecidableEq, Repr

/-- The number of an opcode, ir[15:12] (R66; D1, log 7). -/
def Opcode.number : Opcode → OpcodeNumber
  | .BR => 0x0#_
  | .ADD => 0x1#_
  | .LD => 0x2#_
  | .ST => 0x3#_
  | .JSR => 0x4#_
  | .AND => 0x5#_
  | .LDR => 0x6#_
  | .STR => 0x7#_
  | .RTI => 0x8#_
  | .NOT => 0x9#_
  | .LDI => 0xA#_
  | .STI => 0xB#_
  | .JMP => 0xC#_
  | .RES => 0xD#_
  | .LEA => 0xE#_
  | .TRAP => 0xF#_

/-- "Route to one of 16 opcode handlers" (R61): every 4-bit number is an opcode (R66; D1, log 7). -/
def opcodeOf (n : OpcodeNumber) : Opcode :=
  match n.getLsbD 3, n.getLsbD 2, n.getLsbD 1, n.getLsbD 0 with
  | false, false, false, false => .BR
  | false, false, false, true => .ADD
  | false, false, true, false => .LD
  | false, false, true, true => .ST
  | false, true, false, false => .JSR
  | false, true, false, true => .AND
  | false, true, true, false => .LDR
  | false, true, true, true => .STR
  | true, false, false, false => .RTI
  | true, false, false, true => .NOT
  | true, false, true, false => .LDI
  | true, false, true, true => .STI
  | true, true, false, false => .JMP
  | true, true, false, true => .RES
  | true, true, true, false => .LEA
  | true, true, true, true => .TRAP

/-! ### The fields of a word -/

/-- `ir[15:12]` (R61). -/
def opcodeField (w : Word) : OpcodeNumber := w.extractLsb' 12 _

/-- A 3-bit register field whose lowest bit is bit `lo`: 9 for DR and SR, 6 for SR1 and BaseR, 0 for SR2 (R63). -/
def regField (w : Word) (lo : Nat) : Reg := (w.extractLsb' lo _ : Config.RegBits).toFin

/-- imm5, `ir[4:0]` (R65). -/
def imm5Field (w : Word) : Imm5 := w.extractLsb' 0 _

/-- offset6, `ir[5:0]` (R65). -/
def off6Field (w : Word) : Off6 := w.extractLsb' 0 _

/-- offset9, `ir[8:0]` (R65). -/
def off9Field (w : Word) : Off9 := w.extractLsb' 0 _

/-- offset11, `ir[10:0]` (R65). -/
def off11Field (w : Word) : Off11 := w.extractLsb' 0 _

/-- trapvect8, `ir[7:0]` (R65, R75). -/
def vectField (w : Word) : Vect := w.extractLsb' 0 _

/-! ### Decoding -/

/-- The decode algorithm of R72: one of the 19 rows of kind `instruction`, total on all 65536 words (R69). -/
def decodeCore (w : Word) : Instr :=
  match opcodeOf (opcodeField w) with
  | .BR => .br (w.getLsbD 11) (w.getLsbD 10) (w.getLsbD 9) (off9Field w)
  | .ADD =>
    if w.getLsbD 5 then .addImm (regField w 9) (regField w 6) (imm5Field w)
    else .addReg (regField w 9) (regField w 6) (regField w 0)
  | .LD => .ld (regField w 9) (off9Field w)
  | .ST => .st (regField w 9) (off9Field w)
  | .JSR => if w.getLsbD 11 then .jsr (off11Field w) else .jsrr (regField w 6)
  | .AND =>
    if w.getLsbD 5 then .andImm (regField w 9) (regField w 6) (imm5Field w)
    else .andReg (regField w 9) (regField w 6) (regField w 0)
  | .LDR => .ldr (regField w 9) (regField w 6) (off6Field w)
  | .STR => .str (regField w 9) (regField w 6) (off6Field w)
  | .RTI => .rti
  | .NOT => .notReg (regField w 9) (regField w 6)
  | .LDI => .ldi (regField w 9) (off9Field w)
  | .STI => .sti (regField w 9) (off9Field w)
  | .JMP => .jmp (regField w 6)
  | .RES => .res
  | .LEA => .lea (regField w 9) (off9Field w)
  | .TRAP => .trap (vectField w)

/-- The routine a vector names (R75): equality with six constants, no table in memory (43_trap.md R130).
An unrecognised vector stays the TRAP it is. -/
def resolveVect (v : Vect) : Instr :=
  if v = Config.vectGetc then .getc
  else if v = Config.vectOut then .out
  else if v = Config.vectPuts then .puts
  else if v = Config.vectIn then .inChar
  else if v = Config.vectPutsp then .putsp
  else if v = Config.vectHalt then .halt
  else .trap v

/-- The table's closest name for a core instruction: the sub-decode of TRAP (R75), RET for JMP R7 (41_control.md R93)
and NOP for BR with no condition bit (R70, R74). It changes no meaning. -/
def resolve : Instr → Instr
  | .br n z p off => if n || z || p then .br n z p off else .nop off
  | .jmp base => if base = 7 then .ret else .jmp base
  | .trap v => resolveVect v
  | .addReg dr sr1 sr2 => .addReg dr sr1 sr2
  | .addImm dr sr1 imm => .addImm dr sr1 imm
  | .ld dr off => .ld dr off
  | .st sr off => .st sr off
  | .jsr off => .jsr off
  | .jsrr base => .jsrr base
  | .andReg dr sr1 sr2 => .andReg dr sr1 sr2
  | .andImm dr sr1 imm => .andImm dr sr1 imm
  | .ldr dr base off => .ldr dr base off
  | .str sr base off => .str sr base off
  | .rti => .rti
  | .notReg dr sr => .notReg dr sr
  | .ldi dr off => .ldi dr off
  | .sti sr off => .sti sr off
  | .res => .res
  | .lea dr off => .lea dr off
  | .getc => .getc
  | .out => .out
  | .puts => .puts
  | .inChar => .inChar
  | .putsp => .putsp
  | .halt => .halt
  | .trapUnrecognised v => .trapUnrecognised v
  | .ret => .ret
  | .nop off => .nop off

/-- The core instruction a name stands for: "alias_of" in opcode_table.json, the expansions of R74. -/
def expand : Instr → Instr
  | .getc => .trap Config.vectGetc
  | .out => .trap Config.vectOut
  | .puts => .trap Config.vectPuts
  | .inChar => .trap Config.vectIn
  | .putsp => .trap Config.vectPutsp
  | .halt => .trap Config.vectHalt
  | .trapUnrecognised v => .trap v
  | .ret => .jmp 7
  | .nop off => .br false false false off
  | .br n z p off => .br n z p off
  | .addReg dr sr1 sr2 => .addReg dr sr1 sr2
  | .addImm dr sr1 imm => .addImm dr sr1 imm
  | .ld dr off => .ld dr off
  | .st sr off => .st sr off
  | .jsr off => .jsr off
  | .jsrr base => .jsrr base
  | .andReg dr sr1 sr2 => .andReg dr sr1 sr2
  | .andImm dr sr1 imm => .andImm dr sr1 imm
  | .ldr dr base off => .ldr dr base off
  | .str sr base off => .str sr base off
  | .rti => .rti
  | .notReg dr sr => .notReg dr sr
  | .ldi dr off => .ldi dr off
  | .sti sr off => .sti sr off
  | .jmp base => .jmp base
  | .res => .res
  | .lea dr off => .lea dr off
  | .trap v => .trap v

/-- The decoder: R72, then the closest name of the table (log 8). -/
def decode (w : Word) : Instr := resolve (decodeCore w)

/-- The decoder on a word given as a number, numbered as opcode_table.json numbers it.
Every instruction is one word of 16 bits (R60); bits above `nbits` are 0. No word is refused (R69). -/
def decodeTableWord (nbits w : Nat) : Option Instr := some (decode (BitVec.ofNat _ (w % 2 ^ nbits)))

/-! ### Encoding -/

/-- A register index as a 3-bit field (R63). -/
def regBits (r : Reg) : Config.RegBits := BitVec.ofFin r

/-- One bit. -/
def bit (b : Bool) : BitVec 1 := BitVec.ofBool b

/-- Format OPR (R64); the ignored bits [4:3] are written 0 (R73). -/
def wordOPR (op : Opcode) (dr sr1 sr2 : Reg) : Word :=
  op.number ++ regBits dr ++ regBits sr1 ++ 0#1 ++ 0#2 ++ regBits sr2

/-- Format OPI (R64). -/
def wordOPI (op : Opcode) (dr sr1 : Reg) (imm : Imm5) : Word :=
  op.number ++ regBits dr ++ regBits sr1 ++ 1#1 ++ imm

/-- Format NOT (R64); the ignored bits [5:0] are written 111111 (R73). -/
def wordNOT (dr sr : Reg) : Word :=
  Opcode.NOT.number ++ regBits dr ++ regBits sr ++ 0x3F#6

/-- Format BR (R64). -/
def wordBR (n z p : Bool) (off : Off9) : Word :=
  Opcode.BR.number ++ bit n ++ bit z ++ bit p ++ off

/-- Format JMP (R64); the ignored bits are written 0 (R73). -/
def wordJMP (base : Reg) : Word := Opcode.JMP.number ++ 0#3 ++ regBits base ++ 0#6

/-- Format JSR (R64). -/
def wordJSR (off : Off11) : Word := Opcode.JSR.number ++ 1#1 ++ off

/-- Format JSRR (R64); the ignored bits are written 0 (R73). -/
def wordJSRR (base : Reg) : Word := Opcode.JSR.number ++ 0#1 ++ 0#2 ++ regBits base ++ 0#6

/-- Format PC9 (R64). -/
def wordPC9 (op : Opcode) (r : Reg) (off : Off9) : Word := op.number ++ regBits r ++ off

/-- Format BO6 (R64). -/
def wordBO6 (op : Opcode) (r base : Reg) (off : Off6) : Word := op.number ++ regBits r ++ regBits base ++ off

/-- Format TRAP (R64); the ignored bits [11:8] are written 0 (R73, R74). -/
def wordTRAP (v : Vect) : Word := Opcode.TRAP.number ++ 0#4 ++ v

/-- Format NONE (R64); the ignored bits are written 0 (R73). -/
def wordNONE (op : Opcode) : Word := op.number ++ 0#12

/-- The word of an instruction (R64, R66, R74). -/
def encode : Instr → Word
  | .br n z p off => wordBR n z p off
  | .addReg dr sr1 sr2 => wordOPR .ADD dr sr1 sr2
  | .addImm dr sr1 imm => wordOPI .ADD dr sr1 imm
  | .ld dr off => wordPC9 .LD dr off
  | .st sr off => wordPC9 .ST sr off
  | .jsr off => wordJSR off
  | .jsrr base => wordJSRR base
  | .andReg dr sr1 sr2 => wordOPR .AND dr sr1 sr2
  | .andImm dr sr1 imm => wordOPI .AND dr sr1 imm
  | .ldr dr base off => wordBO6 .LDR dr base off
  | .str sr base off => wordBO6 .STR sr base off
  | .rti => wordNONE .RTI
  | .notReg dr sr => wordNOT dr sr
  | .ldi dr off => wordPC9 .LDI dr off
  | .sti sr off => wordPC9 .STI sr off
  | .jmp base => wordJMP base
  | .res => wordNONE .RES
  | .lea dr off => wordPC9 .LEA dr off
  | .trap v => wordTRAP v
  | .getc => wordTRAP Config.vectGetc
  | .out => wordTRAP Config.vectOut
  | .puts => wordTRAP Config.vectPuts
  | .inChar => wordTRAP Config.vectIn
  | .putsp => wordTRAP Config.vectPutsp
  | .halt => wordTRAP Config.vectHalt
  | .trapUnrecognised v => wordTRAP v
  | .ret => wordJMP 7
  | .nop off => wordBR false false false off

/-! ### The rows of the table -/

/-- A row of opcode_table.json: `w` is the row's instruction when `w AND mask = pattern` (INDEX.md). -/
structure Row where
  mask : Word
  pattern : Word
  deriving DecidableEq, Repr

/-- The 19 rows of kind `instruction`, in the table's order. -/
def instructionRows : List Row :=
  [⟨0xF000, 0x0000⟩, ⟨0xF020, 0x1000⟩, ⟨0xF020, 0x1020⟩, ⟨0xF000, 0x2000⟩, ⟨0xF000, 0x3000⟩, ⟨0xF800, 0x4800⟩,
   ⟨0xF800, 0x4000⟩, ⟨0xF020, 0x5000⟩, ⟨0xF020, 0x5020⟩, ⟨0xF000, 0x6000⟩, ⟨0xF000, 0x7000⟩, ⟨0xF000, 0x8000⟩,
   ⟨0xF000, 0x9000⟩, ⟨0xF000, 0xA000⟩, ⟨0xF000, 0xB000⟩, ⟨0xF000, 0xC000⟩, ⟨0xF000, 0xD000⟩, ⟨0xF000, 0xE000⟩,
   ⟨0xF000, 0xF000⟩]

/-- The row of an instruction (opcode_table.json, `mask` and `match`). -/
def tableRow : Instr → Row
  | .br _ _ _ _ => ⟨0xF000, 0x0000⟩
  | .addReg _ _ _ => ⟨0xF020, 0x1000⟩
  | .addImm _ _ _ => ⟨0xF020, 0x1020⟩
  | .ld _ _ => ⟨0xF000, 0x2000⟩
  | .st _ _ => ⟨0xF000, 0x3000⟩
  | .jsr _ => ⟨0xF800, 0x4800⟩
  | .jsrr _ => ⟨0xF800, 0x4000⟩
  | .andReg _ _ _ => ⟨0xF020, 0x5000⟩
  | .andImm _ _ _ => ⟨0xF020, 0x5020⟩
  | .ldr _ _ _ => ⟨0xF000, 0x6000⟩
  | .str _ _ _ => ⟨0xF000, 0x7000⟩
  | .rti => ⟨0xF000, 0x8000⟩
  | .notReg _ _ => ⟨0xF000, 0x9000⟩
  | .ldi _ _ => ⟨0xF000, 0xA000⟩
  | .sti _ _ => ⟨0xF000, 0xB000⟩
  | .jmp _ => ⟨0xF000, 0xC000⟩
  | .res => ⟨0xF000, 0xD000⟩
  | .lea _ _ => ⟨0xF000, 0xE000⟩
  | .trap _ => ⟨0xF000, 0xF000⟩
  | .getc => ⟨0xF0FF, wordTRAP Config.vectGetc⟩
  | .out => ⟨0xF0FF, wordTRAP Config.vectOut⟩
  | .puts => ⟨0xF0FF, wordTRAP Config.vectPuts⟩
  | .inChar => ⟨0xF0FF, wordTRAP Config.vectIn⟩
  | .putsp => ⟨0xF0FF, wordTRAP Config.vectPutsp⟩
  | .halt => ⟨0xF0FF, wordTRAP Config.vectHalt⟩
  | .trapUnrecognised _ => ⟨0xF000, 0xF000⟩
  | .ret => ⟨0xF1C0, 0xC1C0⟩
  | .nop _ => ⟨0xFE00, 0x0000⟩

/-- The bits of a word that its format ignores (R67). -/
def ignoredBits : Instr → Word
  | .addReg _ _ _ => 0x0018
  | .andReg _ _ _ => 0x0018
  | .notReg _ _ => 0x003F
  | .jmp _ => 0x0E3F
  | .ret => 0x0E3F
  | .jsrr _ => 0x063F
  | .rti => 0x0FFF
  | .res => 0x0FFF
  | .trap _ => 0x0F00
  | .getc => 0x0F00
  | .out => 0x0F00
  | .puts => 0x0F00
  | .inChar => 0x0F00
  | .putsp => 0x0F00
  | .halt => 0x0F00
  | .trapUnrecognised _ => 0x0F00
  | .br _ _ _ _ => 0x0000
  | .addImm _ _ _ => 0x0000
  | .ld _ _ => 0x0000
  | .st _ _ => 0x0000
  | .jsr _ => 0x0000
  | .andImm _ _ _ => 0x0000
  | .ldr _ _ _ => 0x0000
  | .str _ _ _ => 0x0000
  | .ldi _ _ => 0x0000
  | .sti _ _ => 0x0000
  | .lea _ _ => 0x0000
  | .nop _ => 0x0000

end Sys2Proof
end

