-- ==== Sys2Proof/Machine/State.lean ====
section
/-! DEFINITION. The state of the machine as plain data (10_state.md R20, R33, R35), the reasons a step can stop, and reset. -/

namespace Sys2Proof.Machine

/-- The memory: the words that are not zero, by rising address.
The machine is word-addressed and no access is narrower than a word (20_memory.md R41), so a cell is a whole word:
a list of bytes would need a byte order the machine does not have (R49; DESIGN CHOICE, safe, log 17).
`Memory.wf` states the canonical form. -/
abbrev Memory := List (Nat × Word)

/-- An event of the console output (10_state.md R35; D13). -/
inductive ConsoleEvent where
  /-- `Out(b)`, one character. -/
  | out (b : Byte)
  /-- `Flush`. -/
  | flush
  deriving DecidableEq, Repr

/-- What the next step does.
THE MODEL'S OWN field (DESIGN CHOICE, log 4 and log 5): a GETC or IN that waits, as 43_trap.md R122 allows, and a PUTS or
PUTSP that never ends, go on in the next step; they are neither a fault nor a final state (00_scope.md R10 (c)). -/
inductive Phase where
  /-- Fetch, decode and execute an instruction. -/
  | fetch
  /-- GETC at its wait point (R122). -/
  | waitGetc
  /-- IN at its wait point: the prompt has been emitted (R122). -/
  | waitIn
  /-- PUTS over a string with no end, its scan at `a` (R125, 70_reset_and_hazards.md R178 (d); log 5). -/
  | printing (a : Word)
  /-- PUTSP over a string with no end, its scan at `a` (R127, 70_reset_and_hazards.md R178 (d); log 5). -/
  | printingPacked (a : Word)
  deriving DecidableEq, Repr

/-- The state: the architectural state of R20, the console of R35, and the model's own `arrivals` and `phase`. -/
structure State where
  /-- R0 to R7 (R21). -/
  regs : Config.RegFile Word
  /-- PC (R23). -/
  pc : Word
  /-- COND (R26). -/
  cond : Cond
  /-- RUN (R30). -/
  run : Bool
  /-- MEM (R33). -/
  mem : Memory
  /-- KBQ, the characters pending now, head first (R35). -/
  kbq : List Byte
  /-- THE MODEL'S OWN field: what the environment appends to KBQ before each later look at it, the next batch first
  (R35; DESIGN CHOICE, log 3). -/
  arrivals : List (List Byte)
  /-- THE MODEL'S OWN field: what the environment appends to KBQ before every look after those of `arrivals`
  (R35; DESIGN CHOICE, log 3). -/
  refill : List Byte
  /-- The console output events, oldest first (R35). -/
  output : List ConsoleEvent
  /-- What the next step does (log 4, log 5). -/
  phase : Phase
  deriving DecidableEq, Repr

/-- Why a step gives no next state. -/
inductive Fault where
  /-- Raised by `step` alone, in a state with RUN = 0: "No step: RUN = 0; the core is halted and that state is final"
  (00_scope.md R10 (b), 10_state.md R30). Not a fault of the hardware, which has none (60_exceptions.md R150).
  Safe: the machine has no step there either (log 6). -/
  | halted
  deriving DecidableEq, Repr

/-- Why a step has no meaning. -/
inductive Refusal where
  /-- An instruction with no meaning yet. Safe. Raised by no arm of `exec`: every instruction has its meaning. -/
  | notModelled (mnemonic : String)
  deriving DecidableEq, Repr

/-- What a meaning answers. -/
abbrev Result := Host.Outcome State Fault Refusal

/-- The state after `Reset` with the general registers at `gpr`, the open parameter GPR_RESET
(10_state.md R37, 70_reset_and_hazards.md R170). -/
def State.resetWith (gpr : Config.RegFile Word) : State where
  regs := gpr
  pc := Config.pcStart
  cond := Config.condZ
  run := true
  mem := []
  kbq := []
  arrivals := []
  refill := []
  output := []
  phase := .fetch

/-- The machine right after reset (R37).
R0 to R7 are zero (DESIGN CHOICE, unsafe, log 1); no character has been typed and none will arrive (DESIGN CHOICE, unsafe, log 3). -/
def State.reset : State := State.resetWith Config.gprReset

end Sys2Proof.Machine
end

