-- ==== Sys2Proof/Machine/Ops.lean ====
section
/-! DEFINITION. The operations the meanings share: memory, the keyboard hook, registers, the console, trap entry and fetch
(10_state.md, 20_memory.md, 60_exceptions.md R155). -/

namespace Sys2Proof.Machine

/-! ### Memory -/

/-- The canonical form: addresses strictly rising and inside the space of `memWords` words (R33), no entry equal to what an
unlisted word reads as. -/
abbrev Memory.wf (m : Memory) : Prop :=
  m.Pairwise (fun c d => c.1 < d.1) ∧ ∀ c ∈ m, c.1 < Config.memWords ∧ c.2 ≠ Config.memReset

/-- The stored word at address number `a`. -/
def Memory.lookup : Memory → Nat → Word
  | [], _ => Config.memReset
  | (b, v) :: m, a => if a = b then v else Memory.lookup m a

/-- `MEM[a]`, the stored word, with no hook (00_scope.md R9). -/
def Memory.read (m : Memory) (a : Word) : Word := m.lookup a.toNat

/-- Put an entry before the first entry of a higher address. -/
def Memory.insert : Memory → Nat → Word → Memory
  | [], a, v => [(a, v)]
  | (b, w) :: m, a, v => if a < b then (a, v) :: (b, w) :: m else (b, w) :: Memory.insert m a v

/-- `MEM[a] <- v` in the canonical form (20_memory.md R46). -/
def Memory.write (m : Memory) (a v : Word) : Memory :=
  let others := m.filter (fun c => c.1 != a.toNat)
  if v = Config.memReset then others else Memory.insert others a.toNat v

/-- `MemWrite(addr, 1, v)`: a plain store at every address, the device addresses too (20_memory.md R46, R47). -/
def State.memWrite (s : State) (a v : Word) : State := { s with mem := s.mem.write a v }

/-! ### The console input -/

/-- A look at the input stream begins: what the environment has typed by now joins the stream, the next batch of `arrivals`
or, when none is left, `refill` (10_state.md R35; log 3). -/
def State.arrive (s : State) : State :=
  { s with kbq := s.kbq ++ s.arrivals.headD s.refill, arrivals := s.arrivals.tail }

/-- `KbdPending()`, then `KbdTake()` if a character is pending (10_state.md R35): the head of the stream and the state
without it, or nothing. "True exactly when KBQ is non-empty at that moment." -/
def State.poll (s : State) : Option Byte × State :=
  match s.arrive.kbq with
  | [] => (none, s.arrive)
  | c :: rest => (some c, { s.arrive with kbq := rest })

/-- The widening of a character to 16 bits: zero extension (10_state.md R35; D10, log 12). -/
def widen (c : Byte) : Word := c.setWidth _

/-- `KbdHook()` (20_memory.md R44): a ready poll consumes the character, assigns 0x8000 to the status word and moves the
character to the data word (D8, D9, D10; log 12); otherwise the status word becomes 0 and the data word stays. -/
def State.kbdHook (s : State) : State :=
  match s.poll with
  | (some c, t) => (t.memWrite Config.kbsr 0x8000#_).memWrite Config.kbdr (widen c)
  | (none, t) => t.memWrite Config.kbsr 0x0000#_

/-- What a read at `a` does to the state: the hook at 0xFE00, nothing elsewhere (20_memory.md R43). -/
def State.readHook (s : State) (a : Word) : State := if a = Config.kbsr then s.kbdHook else s

/-- `MemRead(addr, 1)`: the hook first, then the word stored (20_memory.md R43). The only read of the machine (R48; log 11). -/
def State.memRead (s : State) (a : Word) : Word × State := ((s.readHook a).mem.read a, s.readHook a)

/-! ### Registers -/

/-- `x[r]` (10_state.md R21). -/
def State.readReg (s : State) (r : Reg) : Word := s.regs[r]

/-- `x[r] <- v` (10_state.md R21). No register is hard-wired. -/
def State.writeReg (s : State) (r : Reg) (v : Word) : State := { s with regs := s.regs.set r v }

/-- `pc <- target` (00_scope.md R9). -/
def State.jump (s : State) (target : Word) : State := { s with pc := target }

/-! ### The console output -/

/-- `Out(b)` for each character in order (10_state.md R35). -/
def State.emit (s : State) (bs : List Byte) : State := { s with output := s.output ++ bs.map ConsoleEvent.out }

/-- `Flush` (10_state.md R35; D13, log 14). -/
def State.flush (s : State) : State := { s with output := s.output ++ [ConsoleEvent.flush] }

/-! ### Trap entry -/

/-- Trap entry: "On entry the block saves exactly one thing: `x[7] <- PC`"; no status is saved, no mode changes and the PC
does not move (60_exceptions.md R155, 43_trap.md R120). There is no return from a trap: the next fetch is at the PC the
fetch of the TRAP left (R156), and RTI is a no-op (44_reserved.md R140). -/
def State.trapEntry (s : State) : State := s.writeReg 7 s.pc

/-! ### Fetch -/

/-- The fetch: `ir <- MemRead(PC, 1)`, hook included, then `PC <- PC + 1` modulo 2^16 (10_state.md R24, R25; log 10, log 11).
The PC that the hook's state holds is the PC fetched at: the hook does not touch it. -/
def fetch (s : State) : Word × State :=
  ((s.memRead s.pc).1, (s.memRead s.pc).2.jump (s.pc + 1#_))

end Sys2Proof.Machine
end

