-- ==== Sys2Proof/Machine/Operands.lean ====
section
/-! DEFINITION. The operand forms and the addressing modes (30_encoding.md R62, R65; 42_load_store.md R100).
The PC of the state given to them is the incremented one (10_state.md R23). All sums are modulo 2^16 (R42; D4, log 10). -/

namespace Sys2Proof.Machine

/-- `sext_N`: an N-bit field sign-extended to 16 bits (30_encoding.md R62), used for N = 5, 6, 9 and 11. -/
def sext {n : Nat} (v : BitVec n) : Word := v.signExtend _

/-- The PC-relative address or target `PC + sext_9(offset9)` (BR, LD, ST, LEA, and the pointer of LDI and STI). -/
def State.pcRelative (s : State) (off : Off9) : Word := s.pc + sext off

/-- The target `PC + sext_11(offset11)` (JSR). -/
def State.pcRelativeLong (s : State) (off : Off11) : Word := s.pc + sext off

/-- The base plus offset address `x[BaseR] + sext_6(offset6)` (LDR, STR). -/
def State.basePlus (s : State) (base : Reg) (off : Off6) : Word := s.readReg base + sext off

/-- Bits [7:0] of a word. -/
def lowByte (w : Word) : Byte := w.extractLsb' 0 _

/-- Bits [15:8] of a word. -/
def highByte (w : Word) : Byte := w.extractLsb' 8 _

end Sys2Proof.Machine
end

