-- ==== Sys2Proof/Machine/Flags.lean ====
section
/-! DEFINITION. The condition code: how it is derived and how BR tests it (10_state.md R26, R27; 41_control.md R91). -/

namespace Sys2Proof.Machine

/-- The condition of a value: Z for 0, N if bit 15 is set, otherwise P (10_state.md R27). -/
def condOf (v : Word) : Cond :=
  if v = 0x0000#_ then Config.condZ else if v.getLsbD 15 then Config.condN else Config.condP

/-- `setcc(r)`: COND from the value now in register `r` (10_state.md R27). -/
def State.setcc (s : State) (r : Reg) : State := { s with cond := condOf (s.readReg r) }

/-- A register write that sets the condition "strictly from that register's final value" (10_state.md R27, R29). -/
def State.writeRegCC (s : State) (r : Reg) (v : Word) : State := (s.writeReg r v).setcc r

/-- The test of BR: each requested bit against the one active condition by exact match, OR-ed (41_control.md R91, C3). -/
def brTaken (n z p : Bool) (cond : Cond) : Bool :=
  (n && cond == Config.condN) || (z && cond == Config.condZ) || (p && cond == Config.condP)

end Sys2Proof.Machine
end

