-- ==== Sys2Proof/Machine/Control.lean ====
section
/-! DEFINITION. The control instructions BR, JMP, JSR and JSRR, with NOP and RET (41_control.md). `s.pc` is the incremented PC
(R90). None of them writes COND (10_state.md R29). -/

namespace Sys2Proof.Machine

/-- The branch that BR and NOP share: taken when the test holds (R91). -/
def State.branch (s : State) (n z p : Bool) (off : Off9) : State :=
  if brTaken n z p s.cond then s.jump (s.pcRelative off) else s

/-- BR: `if taken: pc <- PC + sext_9(offset9)` (R91). -/
def execBr (n z p : Bool) (off : Off9) (s : State) : Result := .next (s.branch n z p off)

/-- NOP: BR with no condition bit, which never branches (30_encoding.md R70, R74). -/
def execNop (off : Off9) (s : State) : Result := .next (s.branch false false false off)

/-- JMP: `pc <- x[BaseR]` (R92). -/
def execJmp (base : Reg) (s : State) : Result := .next (s.jump (s.readReg base))

/-- RET: JMP R7, with no special case (R93). -/
def execRet (s : State) : Result := .next (s.jump (s.readReg 7))

/-- The link both calls write first: `x[7] <- PC` (R94, R95). It does not set COND. -/
def State.link (s : State) : State := s.writeReg 7 s.pc

/-- JSR: `x[7] <- PC`, then `pc <- PC + sext_11(offset11)` (R94). -/
def execJsr (off : Off11) (s : State) : Result := .next (s.link.jump (s.pcRelativeLong off))

/-- JSRR: `x[7] <- PC` first, then `pc <- x[BaseR]`, which reads R7 after the write when BaseR = 7 (R95; D15, log 15). -/
def execJsrr (base : Reg) (s : State) : Result := .next (s.link.jump (s.link.readReg base))

end Sys2Proof.Machine
end

