-- ==== Sys2Proof/Machine/LoadStore.lean ====
section
/-! DEFINITION. The loads, LEA and the stores (42_load_store.md). Every read is `MemRead`, hook included (20_memory.md R48);
every write is a plain store (R46). Addresses are computed from the state the instruction starts with. -/

namespace Sys2Proof.Machine

/-- The load that LD, LDI and LDR share: read the word at `a`, write DR, set the condition (R100 (f)). -/
def State.load (s : State) (dr : Reg) (a : Word) : State := (s.memRead a).2.writeRegCC dr (s.memRead a).1

/-- LD: `x[DR] <- MemRead(PC + sext_9(offset9), 1)`, then setcc (R101). -/
def execLd (dr : Reg) (off : Off9) (s : State) : Result := .next (s.load dr (s.pcRelative off))

/-- LDI: the pointer is read first, then the data at it, then setcc (R102; 20_memory.md R59). -/
def execLdi (dr : Reg) (off : Off9) (s : State) : Result :=
  .next ((s.memRead (s.pcRelative off)).2.load dr (s.memRead (s.pcRelative off)).1)

/-- LDR: `x[DR] <- MemRead(x[BaseR] + sext_6(offset6), 1)`, then setcc (R103). -/
def execLdr (dr base : Reg) (off : Off6) (s : State) : Result := .next (s.load dr (s.basePlus base off))

/-- LEA: `x[DR] <- PC + sext_9(offset9)`, no memory access, then setcc (R104). -/
def execLea (dr : Reg) (off : Off9) (s : State) : Result := .next (s.writeRegCC dr (s.pcRelative off))

/-- ST: `MemWrite(PC + sext_9(offset9), 1, x[SR])` (R105). -/
def execSt (sr : Reg) (off : Off9) (s : State) : Result := .next (s.memWrite (s.pcRelative off) (s.readReg sr))

/-- STI: the pointer is read first, hook included, then the data is stored at it (R106; 20_memory.md R59). -/
def execSti (sr : Reg) (off : Off9) (s : State) : Result :=
  .next ((s.memRead (s.pcRelative off)).2.memWrite (s.memRead (s.pcRelative off)).1 (s.readReg sr))

/-- STR: `MemWrite(x[BaseR] + sext_6(offset6), 1, x[SR])` (R107). -/
def execStr (sr base : Reg) (off : Off6) (s : State) : Result := .next (s.memWrite (s.basePlus base off) (s.readReg sr))

end Sys2Proof.Machine
end

