-- ==== Sys2Proof/Machine/Operate.lean ====
section
/-! DEFINITION. The operate instructions ADD, AND and NOT (40_operate.md). The state given to a meaning is the one after the
fetch: its PC is the incremented one. -/

namespace Sys2Proof.Machine

/-- ADD, register form: `x[DR] <- x[SR1] + x[SR2]` modulo 2^16, then setcc (R80, R84; log 10). -/
def execAddReg (dr sr1 sr2 : Reg) (s : State) : Result :=
  .next (s.writeRegCC dr (s.readReg sr1 + s.readReg sr2))

/-- ADD, immediate form: `x[DR] <- x[SR1] + sext_5(imm5)` modulo 2^16, then setcc (R81, R84; log 10). -/
def execAddImm (dr sr1 : Reg) (imm : Imm5) (s : State) : Result :=
  .next (s.writeRegCC dr (s.readReg sr1 + sext imm))

/-- AND, register form: `x[DR] <- x[SR1] & x[SR2]`, then setcc (R82). -/
def execAndReg (dr sr1 sr2 : Reg) (s : State) : Result :=
  .next (s.writeRegCC dr (s.readReg sr1 &&& s.readReg sr2))

/-- AND, immediate form: `x[DR] <- x[SR1] & sext_5(imm5)`, then setcc (R83). -/
def execAndImm (dr sr1 : Reg) (imm : Imm5) (s : State) : Result :=
  .next (s.writeRegCC dr (s.readReg sr1 &&& sext imm))

/-- NOT: `x[DR] <- ~x[SR]`, all 16 bits, then setcc (R85). -/
def execNot (dr sr : Reg) (s : State) : Result :=
  .next (s.writeRegCC dr (~~~ s.readReg sr))

end Sys2Proof.Machine
end

