-- ==== Sys2Proof/Machine/Reserved.lean ====
section
/-! DEFINITION. The reserved opcodes RTI and RES: defined no-ops (44_reserved.md). The fetch has already advanced the PC, and
nothing else changes (R142). -/

namespace Sys2Proof.Machine

/-- RTI: nothing; there is no privilege check and nothing to return from (R140). -/
def execRti (s : State) : Result := .next s

/-- RES, the reserved opcode: nothing (R141). -/
def execRes (s : State) : Result := .next s

end Sys2Proof.Machine
end

