-- ==== Sys2Proof/Machine/Trap.lean ====
section
/-! DEFINITION. TRAP and its six service routines, built into the block (43_trap.md R120 to R131).
A routine is given the state after trap entry, `x[7] <- PC`. It finishes in its step (R121), but for a GETC or IN with no
character pending and a string with no end: they leave a phase in which the next step goes on (R122, R178; log 4, log 5). -/

namespace Sys2Proof.Machine

/-- Put the character read into R0, widened, and set the condition from R0; the instruction is over (R123, R126). -/
def State.takeChar (s : State) (c : Byte) : State := { s.writeRegCC 0 (widen c) with phase := .fetch }

/-- GETC from its wait point on: take a character if one is pending, with no echo; otherwise wait (R122, R123). -/
def getcRoutine (s : State) : State :=
  match s.poll with
  | (some c, t) => t.takeChar c
  | (none, t) => { t with phase := .waitGetc }

/-- IN from its wait point on: take a character if one is pending, echo it once, flush; otherwise wait (R122, R126; D21, log 14). -/
def inRoutine (s : State) : State :=
  match s.poll with
  | (some c, t) => (t.emit [c]).flush.takeChar c
  | (none, t) => { t with phase := .waitIn }

/-- The characters PUTS emits for a word: its low byte (R125). -/
def putsChars (w : Word) : List Byte := [lowByte w]

/-- The characters PUTSP emits for a word: the low byte, then the high byte if it is not 0 (R127). -/
def putspChars (w : Word) : List Byte := if highByte w = 0x00#_ then [lowByte w] else [lowByte w, highByte w]

/-- The loop of PUTS and PUTSP over at most `n` words from `a` on (R125, R127): read a word, hook included; a zero word ends
the string (`true`); otherwise emit its characters and go on at `a + 1` modulo 2^16 (D14; log 10, log 11). -/
def scan (chars : Word → List Byte) : Nat → Word → State → Bool × State
  | 0, _, s => (false, s)
  | n + 1, a, s =>
    if (s.memRead a).1 = 0x0000#_ then (true, (s.memRead a).2)
    else scan chars n (a + 1#_) ((s.memRead a).2.emit (chars (s.memRead a).1))

/-- How many words a scan reads to know whether it ever ends: all of memory as often as the known characters can make a
difference, since a scan passes 0xFE00 once a round and a round that finds no character there ends it (20_memory.md R44).
`scan_endless` proves that a scan which has not ended by then never ends (log 5).
Irreducible, so that no proof unrolls a scan by accident; `scanLimit_eq` gives the number. -/
@[irreducible] def State.scanLimit (s : State) : Nat :=
  Config.memWords * (s.kbq.length + s.arrivals.flatten.length + s.refill.length + 2)

/-- Print from `a`: to the zero word and then flush, which is all of it wherever the string ends; over a string with no end
(R178 (d)) a step prints whole rounds of memory and stays in the phase `more`, the scan at `a` again, for ever. -/
def State.print (s : State) (chars : Word → List Byte) (more : Phase) (a : Word) : State :=
  let r := scan chars s.scanLimit a s
  if r.1 then { r.2.flush with phase := .fetch } else { r.2 with phase := more }

/-- OUT: `Out(x[0][7:0])`, then `Flush` (R124). -/
def outRoutine (s : State) : State := (s.emit [lowByte (s.readReg 0)]).flush

/-- PUTS from address `a` on (R125). -/
def putsRoutine (a : Word) (s : State) : State := s.print putsChars (.printing a) a

/-- PUTSP from address `a` on (R127). -/
def putspRoutine (a : Word) (s : State) : State := s.print putspChars (.printingPacked a) a

/-- IN: the prompt (D12, log 2), then its wait point (R126). -/
def inPromptRoutine (s : State) : State := inRoutine (s.emit Config.inPrompt)

/-- HALT: the notice (D12, log 2), `Flush`, `RUN <- 0` (R128). -/
def haltRoutine (s : State) : State := { (s.emit Config.haltNotice).flush with run := false }

/-- The dispatch on the vector: equality with six constants; any other vector does nothing (R120, R129, R130). -/
def trapDispatch (v : Vect) (s : State) : State :=
  if v = Config.vectGetc then getcRoutine s
  else if v = Config.vectOut then outRoutine s
  else if v = Config.vectPuts then putsRoutine (s.readReg 0) s
  else if v = Config.vectIn then inPromptRoutine s
  else if v = Config.vectPutsp then putspRoutine (s.readReg 0) s
  else if v = Config.vectHalt then haltRoutine s
  else s

/-- TRAP: `x[7] <- PC`, then the dispatch (R120). -/
def execTrap (vect : Vect) (s : State) : Result := .next (trapDispatch vect s.trapEntry)

/-- GETC (R123). -/
def execGetc (s : State) : Result := .next (getcRoutine s.trapEntry)

/-- OUT (R124). -/
def execOut (s : State) : Result := .next (outRoutine s.trapEntry)

/-- PUTS (R125). -/
def execPuts (s : State) : Result := .next (putsRoutine (s.trapEntry.readReg 0) s.trapEntry)

/-- IN (R126). -/
def execInChar (s : State) : Result := .next (inPromptRoutine s.trapEntry)

/-- PUTSP (R127). -/
def execPutsp (s : State) : Result := .next (putspRoutine (s.trapEntry.readReg 0) s.trapEntry)

/-- HALT (R128). -/
def execHalt (s : State) : Result := .next (haltRoutine s.trapEntry)

/-- TRAP with an unrecognised vector: `x[7] <- PC` and nothing else (R129; D16, log 15). -/
def execTrapUnrecognised (_vect : Vect) (s : State) : Result := .next s.trapEntry

end Sys2Proof.Machine
end

