-- ==== Sys2Proof/Machine/Step.lean ====
section
/-! DEFINITION. One step (10_state.md R24; 00_scope.md R10), and the placing of one instruction where it is fetched. -/

namespace Sys2Proof.Machine

/-- The step: none while RUN = 0; otherwise fetch, increment, decode and execute, or go on with the TRAP in progress (log 4, log 5). -/
def step (s : State) : Host.Outcome State Fault Refusal :=
  if s.run then
    match s.phase with
    | .fetch => exec (decode (fetch s).1) (fetch s).2
    | .waitGetc => .next (getcRoutine s)
    | .waitIn => .next (inRoutine s)
    | .printing a => .next (putsRoutine a s)
    | .printingPacked a => .next (putspRoutine a s)
  else .fault .halted

/-- `s` with the instruction of bits `w` stored at the PC, and set to fetch it: RUN = 1 and no TRAP in progress.
No word stored at 0xFE00 can be fetched, since the fetch's hook overwrites it (20_memory.md R48, R44), so from there the PC
moves to PC_START. A program is loaded from outside the machine before the first step (70_reset_and_hazards.md R173; log 18). -/
def State.withFetchWord (s : State) (nbits w : Nat) : State :=
  let pc := if s.pc = Config.kbsr then Config.pcStart else s.pc
  { s with run := true, phase := .fetch, pc := pc, mem := s.mem.write pc (BitVec.ofNat _ (w % 2 ^ nbits)) }

end Sys2Proof.Machine
end

