-- ==== Sys2Proof/Machine/HostActions.lean ====
section
/-! DEFINITION. What the outside world does to the core: `Reset`, the loader before the first step, and typing
(70_reset_and_hazards.md R170 to R174; 10_state.md R35). None of these is part of a step. -/

namespace Sys2Proof.Machine

/-- `Reset` of a machine whose general registers come up at `gpr`: every piece of core state at its reset value, the console
input as the environment has supplied it, "not reset by the core" (10_state.md R37, R170). -/
def State.hostReset (s : State) (gpr : Config.RegFile Word) : State :=
  { State.resetWith gpr with kbq := s.kbq, arrivals := s.arrivals, refill := s.refill }

/-- `LoadWord(addr, w)`: a plain `MEM[addr] <- w` with no hook (R173). -/
def State.loadWord (s : State) (a w : Word) : State := s.memWrite a w

/-- Words placed from address number `a` upward, in order, "until end-of-file or the address space is exhausted":
placement does not wrap (R172). -/
def State.loadWords : State → Nat → List Word → State
  | s, _, [] => s
  | s, a, w :: ws => if a < Config.memWords then State.loadWords (s.loadWord (BitVec.ofNat _ a) w) (a + 1) ws else s

/-- An image as words: "The first word is the load origin address; every subsequent word is placed into memory starting at
that origin" (R172). An image with no word has no origin word, and the document does not say what loading it does
(91_not_in_source.md N20): that it places nothing is the model's own choice (DESIGN CHOICE, log 19, unsafe). -/
def State.loadImage (s : State) : List Word → State
  | [] => s
  | origin :: ws => s.loadWords origin.toNat ws

/-- The words of an image file: big-endian, of each two bytes the first is bits [15:8] (R172, 20_memory.md R49).
The document says nothing of an odd trailing byte and nothing of an empty file (91_not_in_source.md N20): that the first
gives no words and the second the image with no word is the model's own choice (DESIGN CHOICE, log 19). -/
def wordsOfBytes : List Byte → Option (List Word)
  | [] => some []
  | [_] => none
  | hi :: lo :: rest => (wordsOfBytes rest).map (fun ws => (hi ++ lo : Word) :: ws)

/-- The environment types characters: they join the end of the stream (10_state.md R35). -/
def State.typed (s : State) (cs : List Byte) : State := { s with kbq := s.kbq ++ cs }

end Sys2Proof.Machine
end

