-- ==== Sys2Proof/Safety.lean ====
section
/-! DEFINITION. The terms the statements use: the invariant of the machine and what an instruction leaves unchanged. -/

namespace Sys2Proof.Machine

/-- "exactly one of {POSITIVE, ZERO, NEGATIVE} is active at any time" (10_state.md R26, R28). -/
def CondOneHot (c : Cond) : Prop := c = Config.condP ∨ c = Config.condZ ∨ c = Config.condN

/-- The condition a value gives, in the words of 10_state.md R27: ZERO if it is 0, NEGATIVE if its sign bit is set,
otherwise POSITIVE. -/
def CondFor (v : Word) (c : Cond) : Prop :=
  (v = 0#_ → c = Config.condZ) ∧ (v ≠ 0#_ → v.msb = true → c = Config.condN) ∧ (v ≠ 0#_ → v.msb = false → c = Config.condP)

/-- The invariant every step keeps: memory in canonical form, COND one of its three values (R28), and, once HALT has cleared
RUN, no TRAP in progress (R128: the state after HALT is final). -/
structure State.Inv (s : State) : Prop where
  mem_wf : s.mem.wf
  cond_oneHot : CondOneHot s.cond
  halted_idle : s.run = false → s.phase = .fetch

/-- The characters that join the stream in the next `n` looks at it (10_state.md R35; log 3). -/
def coming : Nat → List (List Byte) → List Byte → List Byte
  | 0, _, _ => []
  | n + 1, arrivals, refill => arrivals.headD refill ++ coming n arrivals.tail refill

/-- From `s` to `t` the stream was looked at `looks` times and `taken` was taken from its front: nothing is lost or reordered,
and a look takes at most one character (10_state.md R35). -/
structure Takes (looks : Nat) (taken : List Byte) (s t : State) : Prop where
  order : s.kbq ++ coming looks s.arrivals s.refill = taken ++ t.kbq
  arrivals : t.arrivals = s.arrivals.drop looks
  refill : t.refill = s.refill
  oneALook : taken.length ≤ looks

/-- Every register but those named holds what it held. -/
def SameRegsExcept (ds : List Reg) (s t : State) : Prop := ∀ r, r ∉ ds → t.readReg r = s.readReg r

/-- Every word of memory reads as it did. -/
def SameMemory (s t : State) : Prop := ∀ a, t.mem.read a = s.mem.read a

/-- Every word of memory outside the addresses named reads as it did. -/
def SameMemoryExcept (as : List Word) (s t : State) : Prop := ∀ a, a ∉ as → t.mem.read a = s.mem.read a

/-- No character was typed or taken. -/
def SameInput (s t : State) : Prop := t.kbq = s.kbq ∧ t.arrivals = s.arrivals ∧ t.refill = s.refill

/-- One look at the input stream, which leaves `rest` of the characters pending then (10_state.md R35; log 3). -/
def LookedAt (rest : List Byte) (s t : State) : Prop := t.kbq = rest ∧ t.arrivals = s.arrivals.tail ∧ t.refill = s.refill

/-- No character was typed, taken or emitted. -/
def SameConsole (s t : State) : Prop := SameInput s t ∧ t.output = s.output

/-- The core runs on as it did: RUN and the phase. -/
def SameMode (s t : State) : Prop := t.run = s.run ∧ t.phase = s.phase

/-- `t` is `s` with `v` in register `dr`, COND from it, and nothing else changed: the result of an operate instruction or LEA. -/
structure RegisterResult (dr : Reg) (v : Word) (s t : State) : Prop where
  value : t.readReg dr = v
  cond : CondFor v t.cond
  registers : SameRegsExcept [dr] s t
  pc : t.pc = s.pc
  memory : SameMemory s t
  console : SameConsole s t
  mode : SameMode s t

/-- `t` is `s` after a load of the word at `a` into `dr`: the read's hook has run (20_memory.md R43), the word is the one
stored then, COND comes from it, and beyond the hook's own effect on memory and input nothing else changed. -/
structure LoadResult (dr : Reg) (a : Word) (s t : State) : Prop where
  value : t.readReg dr = (s.readHook a).mem.read a
  cond : CondFor ((s.readHook a).mem.read a) t.cond
  registers : SameRegsExcept [dr] s t
  pc : t.pc = s.pc
  memory : SameMemory (s.readHook a) t
  input : SameInput (s.readHook a) t
  output : t.output = s.output
  mode : SameMode s t

/-- `t` is `s` with only the PC changed, to `target`. -/
structure OnlyPC (target : Word) (s t : State) : Prop where
  pc : t.pc = target
  registers : SameRegsExcept [] s t
  cond : t.cond = s.cond
  memory : SameMemory s t
  console : SameConsole s t
  mode : SameMode s t

/-- What every TRAP leaves, whatever its routine: R7 holds the PC, which has not moved, and R1 to R6 hold what they held
(43_trap.md R120, R121). -/
structure TrapFrame (s t : State) : Prop where
  link : t.readReg 7 = s.pc
  pc : t.pc = s.pc
  registers : SameRegsExcept [0, 7] s t

/-- The register whose final value sets COND: DR of the instructions whose table entry says "set condition", R0 of GETC and IN
and of the TRAP of their vectors; none for every other instruction (10_state.md R29). -/
def condRegister : Instr → Option Reg
  | .addReg dr _ _ => some dr
  | .addImm dr _ _ => some dr
  | .andReg dr _ _ => some dr
  | .andImm dr _ _ => some dr
  | .notReg dr _ => some dr
  | .ld dr _ => some dr
  | .ldi dr _ => some dr
  | .ldr dr _ _ => some dr
  | .lea dr _ => some dr
  | .getc => some 0
  | .inChar => some 0
  | .trap v => if v = Config.vectGetc ∨ v = Config.vectIn then some 0 else none
  | _ => none

/-- The registers an instruction may write: its DR, R7 for JSR, JSRR and every TRAP, R0 for GETC and IN (10_state.md R22). -/
def destinations : Instr → List Reg
  | .addReg dr _ _ => [dr]
  | .addImm dr _ _ => [dr]
  | .andReg dr _ _ => [dr]
  | .andImm dr _ _ => [dr]
  | .notReg dr _ => [dr]
  | .ld dr _ => [dr]
  | .ldi dr _ => [dr]
  | .ldr dr _ _ => [dr]
  | .lea dr _ => [dr]
  | .jsr _ => [7]
  | .jsrr _ => [7]
  | .trap v => if v = Config.vectGetc ∨ v = Config.vectIn then [0, 7] else [7]
  | .getc => [0, 7]
  | .inChar => [0, 7]
  | .out => [7]
  | .puts => [7]
  | .putsp => [7]
  | .halt => [7]
  | .trapUnrecognised _ => [7]
  | _ => []

/-- The instructions that load the PC, under condition `c`: a taken BR, JMP, RET, JSR and JSRR (10_state.md R25). -/
def redirects (c : Cond) : Instr → Bool
  | .br n z p _ => brTaken n z p c
  | .jmp _ => true
  | .ret => true
  | .jsr _ => true
  | .jsrr _ => true
  | _ => false

/-- The instructions that emit console events: OUT, PUTS, IN, PUTSP and HALT, and the TRAP of their vectors (10_state.md R35). -/
def emits : Instr → Bool
  | .out => true
  | .puts => true
  | .inChar => true
  | .putsp => true
  | .halt => true
  | .trap v => v == Config.vectOut || v == Config.vectPuts || v == Config.vectIn || v == Config.vectPutsp || v == Config.vectHalt
  | _ => false

/-- The instructions that halt: HALT and TRAP x25 (10_state.md R30). -/
def halts : Instr → Bool
  | .halt => true
  | .trap v => v == Config.vectHalt
  | _ => false

/-- TRAP and the rows that name its routines (43_trap.md R120). -/
def isTrap : Instr → Bool
  | .trap _ => true
  | .getc => true
  | .out => true
  | .puts => true
  | .inChar => true
  | .putsp => true
  | .halt => true
  | .trapUnrecognised _ => true
  | _ => false

/-- PUTS and PUTSP and the TRAP of their vectors, which read strings (43_trap.md R125, R127). -/
def readsString : Instr → Bool
  | .puts => true
  | .putsp => true
  | .trap v => v == Config.vectPuts || v == Config.vectPutsp
  | _ => false

/-- The characters that are pending at the next look: the stream as it is, and the batch that arrives with the look
(10_state.md R35; log 3). -/
def State.pending (s : State) : List Byte := s.kbq ++ s.arrivals.headD s.refill

/-- The address a store writes to, from the state the instruction starts with (42_load_store.md R105 to R107); the pointer of
STI is what its own read gives. -/
def storeAddress (s : State) : Instr → Option Word
  | .st _ off => some (s.pcRelative off)
  | .sti _ off => some (s.memRead (s.pcRelative off)).1
  | .str _ base off => some (s.basePlus base off)
  | _ => none

/-- The register a store stores (42_load_store.md R105 to R107). -/
def storedRegister : Instr → Option Reg
  | .st sr _ => some sr
  | .sti sr _ => some sr
  | .str sr _ _ => some sr
  | _ => none

/-- The register a load writes and the address of its data, from the state the instruction starts with
(42_load_store.md R101 to R103); the pointer of LDI is what its own read gives. -/
def loadsFrom (s : State) : Instr → Option (Reg × Word)
  | .ld dr off => some (dr, s.pcRelative off)
  | .ldi dr off => some (dr, (s.memRead (s.pcRelative off)).1)
  | .ldr dr base off => some (dr, s.basePlus base off)
  | _ => none

/-- The loop of PUTS and PUTSP as 43_trap.md R125 and R127 write it, from address `a` in state `s`: read a word, hook included;
a zero word ends it; otherwise `chars` gives what the word emits, and the loop goes on at `a + 1`. `bs` is all it emits and
`t` is the state its reads leave. No such `bs` and `t` exist for a string with no end. -/
inductive PrintLoop (chars : Word → List Byte) : Word → State → List Byte → State → Prop where
  | stop {a : Word} {s : State} : (s.memRead a).1 = 0#_ → PrintLoop chars a s [] (s.memRead a).2
  | word {a : Word} {s t : State} {bs : List Byte} : (s.memRead a).1 ≠ 0#_ →
      PrintLoop chars (a + 1#_) (s.memRead a).2 bs t → PrintLoop chars a s (chars (s.memRead a).1 ++ bs) t

/-- "no zero word exists in memory" (70_reset_and_hazards.md R178 (d)), and none comes into being while it is read: every word
but the status word is not 0, and the environment keeps typing, never the character 0. -/
structure State.NoZeroWord (s : State) : Prop where
  words : ∀ a, a ≠ Config.kbsr → s.mem.read a ≠ 0#_
  noArrivals : s.arrivals = []
  refill : s.refill ≠ []
  characters : ∀ c ∈ s.kbq ++ s.refill, c ≠ 0#_

end Sys2Proof.Machine
end

