-- ==== Sys2Proof/Certificates/Slice0/Obligations.lean ====
section
/-! DEFINITION. The statements about the machine, for the provers. Each docstring names the rule of spec/ it formalises;
a statement that rests on a decision the spec marks as its own (D1 to D26 of 92_eei_decisions.md), or on a choice of the
model's, says so and names the log entry. -/

open Sys2Proof Sys2Proof.Machine

/-! ### Encoding -/

/-- Decode and encode agree (30_encoding.md R64, R72, R74; positions and numbers D1, D2, log 7).
Every instruction's word decodes to the closest table name of what was encoded, and an instruction that is no second name
(a BR with no bit is NOP's, JMP R7 is RET's, a TRAP of a recognised vector is its routine's; log 8) decodes to itself, every
operand at every value. -/
def Obligations.DecodeOfEncodeGivesTheInstruction : Prop :=
  ∀ i : Instr, decode (encode i) = resolve (expand i) ∧
    ((∀ off, i ≠ .br false false false off) → i ≠ .jmp 7 → (∀ v, recognisedVect v = true → i ≠ .trap v) →
      (∀ v, i ≠ .trapUnrecognised v) → decode (encode i) = i)

/-- Every name of the table runs as the core instruction it stands for (30_encoding.md R74, 41_control.md R93; log 8):
the decoder's choice of a name changes no meaning. -/
def Obligations.TableNamesRunAsTheirCoreInstruction : Prop :=
  ∀ (i : Instr) (s : State), i.WellFormed = true →
    exec (expand i) s = exec i s ∧ exec (resolve (expand i)) s = exec i s

/-- The encoder gives back every bit of a word that its format examines (30_encoding.md R64, R67; D1 to D3). -/
def Obligations.EncodeOfDecodeKeepsEveryExaminedBit : Prop :=
  ∀ w : Word, encode (decode w) &&& ~~~ ignoredBits (decode w) = w &&& ~~~ ignoredBits (decode w)

/-- Ignored bits are not examined: any value gives the same instruction (30_encoding.md R67; D3, log 9). -/
def Obligations.IgnoredBitsDoNotChangeTheInstruction : Prop :=
  ∀ w v : Word, w &&& ~~~ ignoredBits (decode w) = v &&& ~~~ ignoredBits (decode w) → decode v = decode w

/-- The 19 instruction rows of opcode_table.json partition the words, and R72 picks the row that matches (30_encoding.md R69;
D1, D2, log 7). -/
def Obligations.EveryWordMatchesExactlyTheRowItDecodesTo : Prop :=
  ∀ w : Word, tableRow (decodeCore w) ∈ instructionRows ∧
    ∀ r ∈ instructionRows, (w &&& r.mask = r.pattern ↔ r = tableRow (decodeCore w))

/-- The decoder gives only well-formed instructions under their closest table name (30_encoding.md R69, R75; log 8), and the
word matches the mask and pattern of that name's table row (opcode numbers and positions D1, D2, log 7). -/
def Obligations.DecodedInstructionsAreWellFormedNames : Prop :=
  ∀ w : Word, (decode w).WellFormed = true ∧ resolve (expand (decode w)) = decode w ∧
    w &&& (tableRow (decode w)).mask = (tableRow (decode w)).pattern

/-- A word of each family, written out from its encoding (95_test_vectors.md; D1, D2, log 7). -/
def Obligations.WrittenOutWordsDecode : Prop :=
  decode 0b0000001111111101#16 = .br false false true 0x1FD#9 ∧
  decode 0b0001000001000010#16 = .addReg 0 1 2 ∧
  decode 0b0101011011101111#16 = .andImm 3 3 15#5 ∧
  decode 0b1001101010111111#16 = .notReg 5 2 ∧
  decode 0b0100100000000001#16 = .jsr 1#11 ∧
  decode 0b0110011001000001#16 = .ldr 3 1 1#6 ∧
  decode 0b1011010000001101#16 = .sti 2 13#9 ∧
  decode 0b1101101010111100#16 = .res ∧
  decode 0b1111000000100101#16 = .halt

/-- Sign extension: "if bit N−1 is set, fill bits [15:N] with 1" (30_encoding.md R62), for the four widths; the trap vector is
taken as it is, not extended, from bits [7:0] of the word (its position is D2, log 7). -/
def Obligations.SignExtensionFillsWithTheSignBit : Prop :=
  (∀ v : BitVec 5, (sext v).toNat = if v.getLsbD 4 then v.toNat + (0xFFFF - (2 ^ 5 - 1)) else v.toNat) ∧
  (∀ v : BitVec 6, (sext v).toNat = if v.getLsbD 5 then v.toNat + (0xFFFF - (2 ^ 6 - 1)) else v.toNat) ∧
  (∀ v : BitVec 9, (sext v).toNat = if v.getLsbD 8 then v.toNat + (0xFFFF - (2 ^ 9 - 1)) else v.toNat) ∧
  (∀ v : BitVec 11, (sext v).toNat = if v.getLsbD 10 then v.toNat + (0xFFFF - (2 ^ 11 - 1)) else v.toNat) ∧
  (∀ w : Word, (vectField w).toNat = w.toNat % 256)

/-! ### The condition code -/

/-- `setcc` sets COND to ZERO, NEGATIVE or POSITIVE from the current value of the register, and changes nothing else
(10_state.md R27). -/
def Obligations.SetccDerivesTheConditionFromTheRegister : Prop :=
  ∀ (s : State) (r : Reg), CondFor (s.readReg r) (s.setcc r).cond ∧
    SameRegsExcept [] s (s.setcc r) ∧ (s.setcc r).pc = s.pc ∧ SameMemory s (s.setcc r) ∧
    SameConsole s (s.setcc r) ∧ SameMode s (s.setcc r)

/-- Where COND is one-hot, BR's exact-match test is the bitwise test `(ir[11:9] & COND) != 0` (41_control.md R91; C3, D26). -/
def Obligations.ExactMatchIsTheBitwiseTestOnOneHotCond : Prop :=
  ∀ (n z p : Bool) (c : BitVec 3), CondOneHot c →
    (brTaken n z p c = true ↔ (BitVec.ofBool n ++ BitVec.ofBool z ++ BitVec.ofBool p : BitVec 3) &&& c ≠ 0#3)

/-- COND is written by `setcc` of the destination register and by nothing else (10_state.md R29): an instruction with no such
register leaves it; one that has finished leaves the condition of that register's value; GETC and IN, while they wait
(log 4), leave it. -/
def Obligations.CondIsWrittenByExactlyTheListedInstructions : Prop :=
  ∀ (i : Instr) (s t : State), s.phase = .fetch → exec i s = .next t →
    match condRegister i with
    | none => t.cond = s.cond
    | some r => (t.phase = .fetch → CondFor (t.readReg r) t.cond) ∧ (t.phase ≠ .fetch → t.cond = s.cond)

/-- COND is "Read by exactly one instruction, BR" (10_state.md R29): any other instruction does the same from any COND, and the
COND it leaves is the same too if it sets it, and the one it was given if it does not or while it waits (log 4). -/
def Obligations.OnlyBranchesReadCond : Prop :=
  ∀ (i : Instr) (s t : State) (c : BitVec 3), (∀ n z p off, i ≠ .br n z p off) → exec i s = .next t →
    ∃ u, exec i { s with cond := c } = .next u ∧ { u with cond := t.cond } = t ∧
      (∀ r, condRegister i = some r → s.phase = .fetch → t.phase = .fetch → u.cond = t.cond) ∧
      (condRegister i = none ∨ s.phase = .fetch ∧ t.phase ≠ .fetch → u.cond = c)

/-! ### Operate instructions -/

/-- ADD answers a next state with the sum of its operands modulo 2^16 in DR, COND from it, and nothing else changed; DR may be
a source (40_operate.md R80, R81; the wrap is D4, log 10). -/
def Obligations.AddWritesTheSumModulo65536 : Prop :=
  (∀ (dr sr1 sr2 : Reg) (s : State), ∃ (t : State) (v : Word), exec (.addReg dr sr1 sr2) s = .next t ∧
    v.toNat = ((s.readReg sr1).toNat + (s.readReg sr2).toNat) % 65536 ∧ RegisterResult dr v s t) ∧
  (∀ (dr sr1 : Reg) (imm : BitVec 5) (s : State), ∃ (t : State) (v : Word), exec (.addImm dr sr1 imm) s = .next t ∧
    v.toNat = ((s.readReg sr1).toNat + (sext imm).toNat) % 65536 ∧ RegisterResult dr v s t)

/-- AND answers a next state with the bitwise AND of its operands in DR, COND from it, and nothing else changed; an immediate
is sign-extended first (40_operate.md R82, R83). -/
def Obligations.AndWritesTheBitwiseAnd : Prop :=
  (∀ (dr sr1 sr2 : Reg) (s : State), ∃ (t : State) (v : Word), exec (.andReg dr sr1 sr2) s = .next t ∧
    (∀ k, k < 16 → v.getLsbD k = ((s.readReg sr1).getLsbD k && (s.readReg sr2).getLsbD k)) ∧ RegisterResult dr v s t) ∧
  (∀ (dr sr1 : Reg) (imm : BitVec 5) (s : State), ∃ (t : State) (v : Word), exec (.andImm dr sr1 imm) s = .next t ∧
    (∀ k, k < 16 → v.getLsbD k = ((s.readReg sr1).getLsbD k && (sext imm).getLsbD k)) ∧ RegisterResult dr v s t)

/-- NOT answers a next state with `0xFFFF - x[SR]` in DR, COND from it, and nothing else changed (40_operate.md R85). -/
def Obligations.NotWritesTheComplement : Prop :=
  ∀ (dr sr : Reg) (s : State), ∃ (t : State) (v : Word), exec (.notReg dr sr) s = .next t ∧
    v.toNat = 0xFFFF - (s.readReg sr).toNat ∧ RegisterResult dr v s t

/-! ### Loads and LEA -/

/-- LEA answers a next state with `PC + sext_9(offset9)` modulo 2^16 in DR, COND from it, and nothing else changed: no access,
no hook (42_load_store.md R104; the wrap is D4, log 10). -/
def Obligations.LeaWritesTheAddressWithoutAnAccess : Prop :=
  ∀ (dr : Reg) (off : BitVec 9) (s : State), ∃ (t : State) (v : Word), exec (.lea dr off) s = .next t ∧
    v.toNat = (s.pc.toNat + (sext off).toNat) % 65536 ∧ RegisterResult dr v s t

/-- LD and LDR answer a next state that has loaded the word at their address (42_load_store.md R101, R103; D4, log 10). -/
def Obligations.LdAndLdrLoadTheWordAtTheirAddress : Prop :=
  (∀ (dr : Reg) (off : BitVec 9) (s : State), ∃ t, exec (.ld dr off) s = .next t ∧
    LoadResult dr (s.pc + sext off) s t) ∧
  (∀ (dr base : Reg) (off : BitVec 6) (s : State), ∃ t, exec (.ldr dr base off) s = .next t ∧
    LoadResult dr (s.readReg base + sext off) s t)

/-- LDI answers a next state that has read the pointer first, hook included, and then loaded the word at it
(42_load_store.md R102, 20_memory.md R59; D4, log 10). -/
def Obligations.LdiLoadsThroughThePointer : Prop :=
  ∀ (dr : Reg) (off : BitVec 9) (s : State),
    let h := s.readHook (s.pc + sext off)
    ∃ t, exec (.ldi dr off) s = .next t ∧ LoadResult dr (h.mem.read (s.pc + sext off)) h t ∧
      SameRegsExcept [dr] s t ∧ t.pc = s.pc ∧ t.output = s.output ∧ SameMode s t

/-! ### Stores -/

/-- A store writes its word at its address and leaves every other address, at every address, device addresses too
(20_memory.md R46). -/
def Obligations.MemWriteStoresUnconditionally : Prop :=
  ∀ (s : State) (a v b : Word), (s.memWrite a v).mem.read b = (if b = a then v else s.mem.read b) ∧
    (s.memWrite a v).regs = s.regs ∧ (s.memWrite a v).pc = s.pc ∧ (s.memWrite a v).cond = s.cond ∧
    SameConsole s (s.memWrite a v) ∧ SameMode s (s.memWrite a v)

/-- ST and STR answer a next state with the source register at `PC + sext_9(offset9)` and at `x[BaseR] + sext_6(offset6)`, every
other word of memory, every register, COND, the PC and the console as before (42_load_store.md R105, R107, 20_memory.md R47; D4, log 10). -/
def Obligations.StAndStrStoreAtTheirAddress : Prop :=
  ∀ (sr base : Reg) (off9 : BitVec 9) (off6 : BitVec 6) (i : Instr) (s : State) (a : Word),
    i = .st sr off9 ∨ i = .str sr base off6 → storeAddress s i = some a →
      (i = .st sr off9 → a = s.pc + sext off9) ∧ (i = .str sr base off6 → a = s.readReg base + sext off6) ∧
      ∃ t, exec i s = .next t ∧ t.mem.read a = s.readReg sr ∧ SameMemoryExcept [a] s t ∧
        SameRegsExcept [] s t ∧ t.cond = s.cond ∧ t.pc = s.pc ∧ SameConsole s t ∧ SameMode s t

/-- STI answers a next state that has read the pointer first, hook included, and stored the source register at it; every other
word is as the pointer's read left it (42_load_store.md R106, 20_memory.md R59; D4, log 10). -/
def Obligations.StiStoresThroughThePointer : Prop :=
  ∀ (sr : Reg) (off : BitVec 9) (s : State) (a : Word), storeAddress s (.sti sr off) = some a →
    let h := s.readHook (s.pc + sext off)
    a = h.mem.read (s.pc + sext off) ∧
    ∃ t, exec (.sti sr off) s = .next t ∧ t.mem.read a = s.readReg sr ∧ SameMemoryExcept [a] h t ∧
      SameInput h t ∧ t.output = s.output ∧
      SameRegsExcept [] s t ∧ t.cond = s.cond ∧ t.pc = s.pc ∧ SameMode s t

/-- A load sees the most recent store to its address (20_memory.md R54): after any store to `a`, in any state `u` in which the
word at `a` still stands as that store left it, any load from `a` answers a next state with the stored register's value in DR.
At 0xFE00 the hook comes first (R44), so that address is excepted (the wrap of the addresses is D4, log 10). -/
def Obligations.ALoadSeesTheLastStore : Prop :=
  ∀ (i j : Instr) (s u : State) (a : Word) (sr dr : Reg), storedRegister i = some sr → storeAddress s i = some a →
    loadsFrom u j = some (dr, a) → a ≠ 0xFE00#16 →
      ∃ t, exec i s = .next t ∧ (u.mem.read a = t.mem.read a → ∃ v, exec j u = .next v ∧ v.readReg dr = s.readReg sr)

/-- Any store, ST, STR or STI, to the next instruction's address is seen by its fetch: the next step runs the word stored, the PC
advanced by one (20_memory.md R57; the PC's wrap is D4, log 10; at 0xFE00 the fetch's hook overwrites the word, D7, log 11, so
that address is excepted). -/
def Obligations.AStoreIsSeenByTheNextFetch : Prop :=
  ∀ (i : Instr) (s : State) (sr : Reg), s.run = true → s.phase = .fetch → s.pc ≠ 0xFE00#16 →
    storedRegister i = some sr → storeAddress s i = some s.pc →
      ∃ t, exec i s = .next t ∧ step t = exec (decode (s.readReg sr)) (t.jump (s.pc + 1#16))

/-! ### The keyboard -/

/-- A memory read runs the keyboard hook at 0xFE00, before the value is taken, and nowhere else (20_memory.md R43). -/
def Obligations.MemReadRunsTheHookAtKbsrOnly : Prop :=
  ∀ (s : State) (a : Word), (a ≠ 0xFE00#16 → s.memRead a = (s.mem.read a, s)) ∧
    (a = 0xFE00#16 → s.memRead a = (s.kbdHook.mem.read 0xFE00#16, s.kbdHook))

/-- The keyboard hook (20_memory.md R44; D8, D9, D10, log 12; arrivals, log 3): a ready poll takes the first pending character,
assigns 0x8000 to the status word and moves the character, zero-extended, to the data word; otherwise the status word becomes
0 and the data word stays. All else is unchanged. -/
def Obligations.TheHookPollsTheKeyboard : Prop :=
  ∀ s : State,
    (∀ c rest, s.pending = c :: rest → s.kbdHook.mem.read 0xFE00#16 = 0x8000#16 ∧
      (s.kbdHook.mem.read 0xFE02#16).toNat = c.toNat ∧ LookedAt rest s s.kbdHook) ∧
    (s.pending = [] → s.kbdHook.mem.read 0xFE00#16 = 0#16 ∧
      s.kbdHook.mem.read 0xFE02#16 = s.mem.read 0xFE02#16 ∧ LookedAt [] s s.kbdHook) ∧
    SameMemoryExcept [0xFE00#16, 0xFE02#16] s s.kbdHook ∧
    s.kbdHook.regs = s.regs ∧ s.kbdHook.pc = s.pc ∧ s.kbdHook.cond = s.cond ∧ s.kbdHook.output = s.output ∧
    SameMode s s.kbdHook

/-- "when input is pending, reading status yields a value with bit 15 set and a subsequent read of the data address yields the
pending character widened"; with none, "reading the status address yields 0" (42_load_store.md R108; D8 to D10, log 12). -/
def Obligations.PollThenReadYieldsTheCharacter : Prop :=
  ∀ (dr base : Reg) (s : State), s.readReg base = 0xFE00#16 → dr ≠ base →
    ∃ t u, exec (.ldr dr base 0#6) s = .next t ∧ exec (.ldr dr base 2#6) t = .next u ∧
      (∀ c rest, s.pending = c :: rest → (t.readReg dr).getLsbD 15 = true ∧ t.cond = 4#3 ∧
        (u.readReg dr).toNat = c.toNat ∧ u.kbq = rest) ∧
      (s.pending = [] → t.readReg dr = 0#16 ∧ t.cond = 2#3 ∧ u.readReg dr = s.mem.read 0xFE02#16)

/-! ### Control -/

/-- BR and NOP answer a next state; BR branches to `PC + sext_9(offset9)` exactly when a requested bit matches COND, NOP never;
only the PC changes (41_control.md R91, 30_encoding.md R70; D4, log 10). -/
def Obligations.BrBranchesOnAMatchingCondition : Prop :=
  (∀ (n z p : Bool) (off : BitVec 9) (s : State), ∃ t, exec (.br n z p off) s = .next t ∧
    ((n = true ∧ s.cond = 4#3) ∨ (z = true ∧ s.cond = 2#3) ∨ (p = true ∧ s.cond = 1#3) →
      OnlyPC (s.pc + sext off) s t) ∧
    (¬ ((n = true ∧ s.cond = 4#3) ∨ (z = true ∧ s.cond = 2#3) ∨ (p = true ∧ s.cond = 1#3)) → OnlyPC s.pc s t)) ∧
  (∀ (off : BitVec 9) (s : State), ∃ t, exec (.nop off) s = .next t ∧ OnlyPC s.pc s t)

/-- JMP answers a next state with the PC at the value of the base register, RET with the PC at the value of R7; nothing else
changes (41_control.md R92, R93). -/
def Obligations.JmpLoadsThePCFromTheBaseRegister : Prop :=
  (∀ (base : Reg) (s : State), ∃ t, exec (.jmp base) s = .next t ∧ OnlyPC (s.readReg base) s t) ∧
  (∀ s : State, ∃ t, exec .ret s = .next t ∧ OnlyPC (s.readReg 7) s t)

/-- JSR and JSRR answer a next state with the return address in R7 and the PC at the target; JSRR R7 continues at the return
address; COND, memory and the console stay (41_control.md R94, R95; D4, log 10; D15, log 15). -/
def Obligations.CallsLinkR7AndJump : Prop :=
  (∀ (off : BitVec 11) (s : State), ∃ t, exec (.jsr off) s = .next t ∧ t.readReg 7 = s.pc ∧ t.pc = s.pc + sext off ∧
    SameRegsExcept [7] s t ∧ t.cond = s.cond ∧ SameMemory s t ∧ SameConsole s t ∧ SameMode s t) ∧
  (∀ (base : Reg) (s : State), ∃ t, exec (.jsrr base) s = .next t ∧ t.readReg 7 = s.pc ∧
    (base ≠ 7 → t.pc = s.readReg base) ∧ (base = 7 → t.pc = s.pc) ∧
    SameRegsExcept [7] s t ∧ t.cond = s.cond ∧ SameMemory s t ∧ SameConsole s t ∧ SameMode s t)

/-! ### Reserved opcodes -/

/-- RTI and RES answer a next state with nothing changed: a whole step on one of them only fetches (44_reserved.md R140, R141,
R142). -/
def Obligations.ReservedOpcodesAreNoOps : Prop :=
  (∀ s : State, exec .rti s = .next s ∧ exec .res s = .next s) ∧
  (∀ s : State, s.run = true → s.phase = .fetch → decode (fetch s).1 = .rti ∨ decode (fetch s).1 = .res →
    step s = .next (fetch s).2)

/-! ### Traps -/

/-- Trap entry saves exactly one thing, the PC in R7: every TRAP, whatever its routine, answers a next state with R7 = PC, the
PC unmoved and R1 to R6 as they were; trap entry itself changes nothing else (60_exceptions.md R155, 43_trap.md R120). That a
TRAP of an unrecognised vector writes R7 too is D16, log 15; that a waiting or endless TRAP answers a state is log 4, log 5. -/
def Obligations.TrapEntrySavesOnlyThePC : Prop :=
  (∀ s : State, s.trapEntry.readReg 7 = s.pc ∧ SameRegsExcept [7] s s.trapEntry ∧ s.trapEntry.pc = s.pc ∧
    s.trapEntry.cond = s.cond ∧ SameMemory s s.trapEntry ∧ SameConsole s s.trapEntry ∧ SameMode s s.trapEntry) ∧
  (∀ (i : Instr) (s : State), isTrap i = true → ∃ t, exec i s = .next t ∧ TrapFrame s t)

/-- TRAP answers the next state of the routine its vector names; with any other vector only R7 has changed
(43_trap.md R120, 30_encoding.md R75; the R7 write of an unknown vector is D16, log 15). -/
def Obligations.TrapDispatchesOnItsVector : Prop :=
  ∀ (v : Byte) (s : State), ∃ t, exec (.trap v) s = .next t ∧ t.readReg 7 = s.pc ∧ t.pc = s.pc ∧
    (v = 0x20#8 → exec .getc s = .next t) ∧ (v = 0x21#8 → exec .out s = .next t) ∧
    (v = 0x22#8 → exec .puts s = .next t) ∧ (v = 0x23#8 → exec .inChar s = .next t) ∧
    (v = 0x24#8 → exec .putsp s = .next t) ∧ (v = 0x25#8 → exec .halt s = .next t) ∧
    (v.toNat < 0x20 ∨ 0x25 < v.toNat → SameRegsExcept [7] s t ∧ t.cond = s.cond ∧ SameMemory s t ∧ SameConsole s t ∧
      SameMode s t)

/-- GETC, with a character pending, answers the state that has it, zero-extended, in R0, COND from R0, R7 = PC, and emits
nothing (43_trap.md R123; D10, log 12; arrivals, log 3). -/
def Obligations.GetcTakesThePendingCharacter : Prop :=
  ∀ (s : State) (c : Byte) (rest : List Byte), s.phase = .fetch → s.pending = c :: rest →
    ∃ t, exec .getc s = .next t ∧ (t.readReg 0).toNat = c.toNat ∧ CondFor (t.readReg 0) t.cond ∧ TrapFrame s t ∧
      LookedAt rest s t ∧ t.output = s.output ∧ SameMemory s t ∧ SameMode s t

/-- IN, with a character pending, emits the prompt, the character once and a flush, and has it in R0 as GETC does
(43_trap.md R126; D10, log 12; D21, log 14; for every prompt, log 2). -/
def Obligations.InPromptsAndEchoes : Prop :=
  ∀ (s : State) (c : Byte) (rest : List Byte), s.phase = .fetch → s.pending = c :: rest →
    ∃ t, exec .inChar s = .next t ∧ (t.readReg 0).toNat = c.toNat ∧ CondFor (t.readReg 0) t.cond ∧ TrapFrame s t ∧
      LookedAt rest s t ∧
      t.output = s.output ++ Config.inPrompt.map .out ++ [.out c, .flush] ∧ SameMemory s t ∧ SameMode s t

/-- With no character pending GETC and IN wait (43_trap.md R122; the model's way of waiting is log 4, arrivals log 3): R7 is
written and, for IN, the prompt emitted (for every prompt, log 2), R0 and COND are not; a waiting step takes a character as soon
as one is pending, zero-extended (D10, log 12), in IN with one echo and a flush (D21, log 14), and changes nothing otherwise: no end of input is ever signalled (D11, log 13). -/
def Obligations.GetcAndInWaitForACharacter : Prop :=
  (∀ s : State, s.pending = [] →
    (∃ t, exec .getc s = .next t ∧ t.phase = .waitGetc ∧ TrapFrame s t ∧ t.readReg 0 = s.readReg 0 ∧ t.cond = s.cond ∧
      t.output = s.output ∧ SameMemory s t ∧ LookedAt [] s t ∧ t.run = s.run) ∧
    (∃ t, exec .inChar s = .next t ∧ t.phase = .waitIn ∧ TrapFrame s t ∧ t.readReg 0 = s.readReg 0 ∧ t.cond = s.cond ∧
      t.output = s.output ++ Config.inPrompt.map .out ∧ SameMemory s t ∧ LookedAt [] s t ∧ t.run = s.run)) ∧
  (∀ s : State, s.run = true → s.phase = .waitGetc ∨ s.phase = .waitIn →
    (s.pending = [] → step s = .next { s with arrivals := s.arrivals.tail }) ∧
    (∀ c rest, s.pending = c :: rest → ∃ t, step s = .next t ∧ t.phase = .fetch ∧ (t.readReg 0).toNat = c.toNat ∧
      CondFor (t.readReg 0) t.cond ∧ SameRegsExcept [0] s t ∧ t.pc = s.pc ∧ LookedAt rest s t ∧ SameMemory s t ∧ t.run = true ∧
      (s.phase = .waitGetc → t.output = s.output) ∧ (s.phase = .waitIn → t.output = s.output ++ [.out c, .flush])))

/-- OUT answers a next state that has emitted the low byte of R0 and a flush, with R7 = PC and nothing else changed
(43_trap.md R124, R120). -/
def Obligations.OutEmitsTheLowByteOfR0 : Prop :=
  ∀ s : State, ∃ (t : State) (b : Byte), exec .out s = .next t ∧ b.toNat = (s.readReg 0).toNat % 256 ∧
    t.output = s.output ++ [.out b, .flush] ∧ TrapFrame s t ∧ t.readReg 0 = s.readReg 0 ∧ t.cond = s.cond ∧
    SameMemory s t ∧ SameInput s t ∧ SameMode s t

/-- PUTS answers a next state that has emitted the low byte of each word of the string at R0, up to the zero word, and a flush,
with R7 = PC and nothing else changed, for every string clear of 0xFE00, across the top of memory too
(43_trap.md R125; D14, log 10). -/
def Obligations.PutsEmitsTheLowBytesOfItsString : Prop :=
  ∀ (s : State) (ws : List Word), s.phase = .fetch →
    (∀ k, k ≤ ws.length → s.readReg 0 + BitVec.ofNat 16 k ≠ 0xFE00#16) →
    (∀ k (h : k < ws.length), s.mem.read (s.readReg 0 + BitVec.ofNat 16 k) = ws[k] ∧ ws[k] ≠ 0#16) →
    s.mem.read (s.readReg 0 + BitVec.ofNat 16 ws.length) = 0#16 →
      ∃ t, exec .puts s = .next t ∧
        t.output = s.output ++ ws.map (fun w => ConsoleEvent.out (BitVec.ofNat 8 (w.toNat % 256))) ++ [.flush] ∧
        TrapFrame s t ∧ t.readReg 0 = s.readReg 0 ∧ t.cond = s.cond ∧ SameMemory s t ∧ SameInput s t ∧
        SameMode s t

/-- PUTSP does as PUTS with two characters a word, the low byte and then the high byte if it is not 0
(43_trap.md R127; D13, log 14; D14, log 10). -/
def Obligations.PutspEmitsBothBytesOfItsString : Prop :=
  ∀ (s : State) (ws : List Word), s.phase = .fetch →
    (∀ k, k ≤ ws.length → s.readReg 0 + BitVec.ofNat 16 k ≠ 0xFE00#16) →
    (∀ k (h : k < ws.length), s.mem.read (s.readReg 0 + BitVec.ofNat 16 k) = ws[k] ∧ ws[k] ≠ 0#16) →
    s.mem.read (s.readReg 0 + BitVec.ofNat 16 ws.length) = 0#16 →
      ∃ t, exec .putsp s = .next t ∧
        t.output = s.output ++ ws.flatMap (fun w => ConsoleEvent.out (BitVec.ofNat 8 (w.toNat % 256)) ::
          (if w.toNat / 256 = 0 then [] else [ConsoleEvent.out (BitVec.ofNat 8 (w.toNat / 256))])) ++ [.flush] ∧
        TrapFrame s t ∧ t.readReg 0 = s.readReg 0 ∧ t.cond = s.cond ∧ SameMemory s t ∧ SameInput s t ∧
        SameMode s t

/-- PUTS and PUTSP run the loop of their rule, hook included, whole and in one step wherever it ends: they answer the state its
reads leave, with its characters and a flush emitted (43_trap.md R121, R125, R127; D14, log 10, log 11; D13, log 14). Where it
never ends (70_reset_and_hazards.md R178 (d)) they have written R7 and emitted characters and no flush, and the loop still never
ends from the state they leave. A step that goes on from there (the phases are the model's, log 5) runs the same loop from where
the scan stands: it ends the instruction if the loop ends, and otherwise emits more characters and stays. In every case the PC,
COND, RUN, the registers but R7 and all of memory but the two keyboard words are as they were. -/
def Obligations.PutsAndPutspRunTheirLoop : Prop :=
  let low := fun w : Word => [BitVec.ofNat 8 (w.toNat % 256)]
  let both := fun w : Word => BitVec.ofNat 8 (w.toNat % 256) :: if w.toNat / 256 = 0 then [] else [BitVec.ofNat 8 (w.toNat / 256)]
  let keeps := fun s t : State => t.pc = s.pc ∧ t.cond = s.cond ∧ t.run = s.run ∧ SameMemoryExcept [0xFE00#16, 0xFE02#16] s t
  (∀ (i : Instr) (chars : Word → List Byte) (s : State), s.phase = .fetch → i = .puts ∧ chars = low ∨ i = .putsp ∧ chars = both →
    (∀ bs u, PrintLoop chars (s.readReg 0) s.trapEntry bs u → u.phase = .fetch ∧ u.regs = s.trapEntry.regs ∧ keeps s u ∧
      exec i s = .next { u with output := s.output ++ bs.map .out ++ [.flush] }) ∧
    ((¬ ∃ bs u, PrintLoop chars (s.readReg 0) s.trapEntry bs u) →
      ∃ (t : State) (bs : List Byte), exec i s = .next t ∧ t.output = s.output ++ bs.map .out ∧ bs ≠ [] ∧
        t.regs = s.trapEntry.regs ∧ keeps s t ∧ (i = .puts → t.phase = .printing (s.readReg 0)) ∧
        (i = .putsp → t.phase = .printingPacked (s.readReg 0)) ∧ ¬ ∃ cs u, PrintLoop chars (s.readReg 0) t cs u)) ∧
  (∀ (chars : Word → List Byte) (a : Word) (s : State), s.run = true →
    s.phase = .printing a ∧ chars = low ∨ s.phase = .printingPacked a ∧ chars = both →
    (∀ bs u, PrintLoop chars a s bs u → u.regs = s.regs ∧ keeps s u ∧
      step s = .next { u with output := s.output ++ bs.map .out ++ [.flush], phase := .fetch }) ∧
    ((¬ ∃ bs u, PrintLoop chars a s bs u) →
      ∃ (t : State) (bs : List Byte), step s = .next t ∧ t.output = s.output ++ bs.map .out ∧ bs ≠ [] ∧ t.phase = s.phase ∧
        t.regs = s.regs ∧ keeps s t ∧ ¬ ∃ cs u, PrintLoop chars a t cs u))

/-- "PUTS or PUTSP when no zero word exists in memory" never ends (70_reset_and_hazards.md R178 (d)), under `step` alone: while
the environment keeps typing characters other than 0 (log 3), each step answers a next state, still printing, with more emitted,
from which the same holds (the phases are the model's, log 5; D14, log 11). -/
def Obligations.AStringWithNoZeroWordPrintsForEver : Prop :=
  (∀ (i : Instr) (s : State), i = .puts ∨ i = .putsp → s.NoZeroWord →
    ∃ t, exec i s = .next t ∧ t.NoZeroWord ∧ t.run = s.run ∧ s.output.length < t.output.length ∧
      (t.phase = .printing (s.readReg 0) ∨ t.phase = .printingPacked (s.readReg 0))) ∧
  (∀ (s : State) (a : Word), s.NoZeroWord → s.run = true → s.phase = .printing a ∨ s.phase = .printingPacked a →
    ∃ t, step s = .next t ∧ t.NoZeroWord ∧ t.run = true ∧ t.phase = s.phase ∧ s.output.length < t.output.length)

/-- A string that starts at 0xFE00 with a character pending polls the keyboard there: its first word reads 0x8000 and the scan
goes on (43_trap.md R125, R127, 20_memory.md R44; D8, D9, D10, log 12; D14, log 11; arrivals, log 3). Where the word at 0xFE01 is
0, PUTS and PUTSP end there, each with the characters of 0x8000 and a flush (the flush that ends PUTSP is D13, log 14), and the
keyboard words hold 0x8000 and the character. For PUTS alone: where the word at 0xFE01 is not 0, the character taken is not 0 and
the word at 0xFE03 is 0, the scan goes on through 0xFE02, where it reads the character just taken, and ends at 0xFE03. -/
def Obligations.AStringAcrossKbsrReadsTheKeyboard : Prop :=
  ∀ (s : State) (c : Byte) (rest : List Byte), s.phase = .fetch → s.readReg 0 = 0xFE00#16 → s.pending = c :: rest →
    (s.mem.read 0xFE01#16 = 0#16 →
      (∃ t, exec .puts s = .next t ∧ t.output = s.output ++ [.out 0#8, .flush] ∧ LookedAt rest s t ∧
        t.mem.read 0xFE00#16 = 0x8000#16 ∧ (t.mem.read 0xFE02#16).toNat = c.toNat ∧ t.phase = .fetch) ∧
      (∃ t, exec .putsp s = .next t ∧ t.output = s.output ++ [.out 0#8, .out 0x80#8, .flush] ∧ LookedAt rest s t ∧
        t.mem.read 0xFE00#16 = 0x8000#16 ∧ (t.mem.read 0xFE02#16).toNat = c.toNat ∧ t.phase = .fetch)) ∧
    (s.mem.read 0xFE01#16 ≠ 0#16 → c ≠ 0#8 → s.mem.read 0xFE03#16 = 0#16 →
      ∃ t, exec .puts s = .next t ∧ LookedAt rest s t ∧ t.phase = .fetch ∧ t.output = s.output ++
        [.out 0#8, .out (BitVec.ofNat 8 ((s.mem.read 0xFE01#16).toNat % 256)), .out c, .flush])

/-- With no character pending PUTS and PUTSP finish in their step from every memory: a scan that reaches 0xFE00 reads 0 there
(43_trap.md R125, R127, 20_memory.md R44; D14, log 11; arrivals, log 3; the flush that ends PUTSP is D13, log 14). -/
def Obligations.PrintingFinishesWhenNoCharacterIsPending : Prop :=
  ∀ (i : Instr) (s : State), i = .puts ∨ i = .putsp → s.pending = [] →
    ∃ (t : State) (bs : List Byte), exec i s = .next t ∧ t.phase = .fetch ∧ TrapFrame s t ∧ t.readReg 0 = s.readReg 0 ∧
      t.output = s.output ++ bs.map .out ++ [.flush] ∧ t.kbq = [] ∧ SameMemoryExcept [0xFE00#16] s t

/-- HALT answers a next state that has emitted the notice and a flush and cleared RUN, with R7 = PC and nothing else changed
(43_trap.md R128; D6; for every notice, log 2). -/
def Obligations.HaltClearsRunAfterItsNotice : Prop :=
  ∀ s : State, ∃ t, exec .halt s = .next t ∧ t.run = false ∧
    t.output = s.output ++ Config.haltNotice.map .out ++ [.flush] ∧ TrapFrame s t ∧ t.readReg 0 = s.readReg 0 ∧
    t.cond = s.cond ∧ SameMemory s t ∧ SameInput s t ∧ t.phase = s.phase

/-- An unrecognised vector answers a next state with R7 = PC and nothing else changed (43_trap.md R129; D16, log 15). -/
def Obligations.UnrecognisedVectorsOnlyWriteR7 : Prop :=
  ∀ (v : Byte) (s : State), ∃ t, exec (.trapUnrecognised v) s = .next t ∧ t.readReg 7 = s.pc ∧
    SameRegsExcept [7] s t ∧ t.pc = s.pc ∧ t.cond = s.cond ∧ SameMemory s t ∧ SameConsole s t ∧ SameMode s t

/-- A trap routine changes only what its rule lists (43_trap.md R121, R131; D23): R0 and COND in GETC and IN alone, RUN in HALT
alone, memory in PUTS and PUTSP alone and there the two keyboard words alone. -/
def Obligations.TrapRoutinesChangeOnlyWhatTheyList : Prop :=
  ∀ (i : Instr) (s t : State), isTrap i = true → exec i s = .next t →
    SameRegsExcept (destinations i) s t ∧ t.pc = s.pc ∧ SameMemoryExcept [0xFE00#16, 0xFE02#16] s t ∧
    (i ≠ .puts → i ≠ .putsp → i ≠ .trap 0x22#8 → i ≠ .trap 0x24#8 → SameMemory s t) ∧
    (condRegister i = none → t.cond = s.cond) ∧ (halts i = false → t.run = s.run) ∧
    (emits i = false → t.output = s.output)

/-! ### The step -/

/-- A step runs the decoded instruction: where the word read at the PC, hook included, decodes to `i`, the step is `exec` of
`i` at the state after that read with the PC advanced by one (10_state.md R24, R25; D4, log 10; D7, log 11). -/
def Obligations.AStepRunsTheDecodedInstruction : Prop :=
  ∀ (s : State) (i : Instr), s.run = true → s.phase = .fetch → decode (s.memRead s.pc).1 = i →
    step s = exec i ((s.memRead s.pc).2.jump (s.pc + 1#16))

/-- The word of a well-formed instruction in memory at the PC runs as that instruction, the PC advanced by one, modulo 2^16 (D4,
log 10), and nothing else touched by the fetch (10_state.md R24, 30_encoding.md R72; D1, D2, log 7); not at 0xFE00, where the
fetch's hook overwrites the word (D7, log 11). -/
def Obligations.AnEncodedInstructionAtThePCRuns : Prop :=
  ∀ (s : State) (i : Instr), s.run = true → s.phase = .fetch → i.WellFormed = true → s.pc ≠ 0xFE00#16 →
    s.mem.read s.pc = encode i → step s = exec i (s.jump (s.pc + 1#16))

/-- A fetch from 0xFE00 polls the keyboard and is a no-op, whatever was stored there (20_memory.md R48, R44; D7, log 11): the poll
assigns the word fetched, 0x8000 or 0 (D8, log 12), and these are words of RTI and of BR with no bit (D1, log 7). -/
def Obligations.AFetchFromKbsrPollsAndDoesNothingElse : Prop :=
  ∀ s : State, s.run = true → s.phase = .fetch → s.pc = 0xFE00#16 → step s = .next (s.kbdHook.jump 0xFE01#16)

/-- Every instruction answers a next state from every state, and every state with RUN = 1 has a step: no fault, no trap
elsewhere, no refusal (60_exceptions.md R150). It does not say that the instruction has completed: a GETC or IN with nothing
pending and a PUTS or PUTSP over an endless string (00_scope.md R10 (c)) answer a next state by the model's choice of log 4 and
log 5. -/
def Obligations.EveryInstructionAnswersANextState : Prop :=
  (∀ (i : Instr) (s : State), ∃ t, exec i s = .next t) ∧ (∀ s : State, s.run = true → ∃ t, step s = .next t)

/-- While RUN = 0 the core has no step (10_state.md R30; D6; the model's answer there is log 6). -/
def Obligations.AHaltedCoreHasNoStep : Prop :=
  ∀ s : State, s.run = false → step s = .fault .halted

/-- "no other instruction, no opcode and no memory write clears RUN" (10_state.md R30; D6): a step that leaves RUN = 0 fetched
HALT, and a step that fetched HALT leaves RUN = 0. -/
def Obligations.OnlyHaltClearsRun : Prop :=
  ∀ s t : State, step s = .next t →
    (t.run = false ↔ s.phase = .fetch ∧ halts (decode (s.memRead s.pc).1) = true)

/-- A step on an instruction other than a taken BR, JMP, RET, JSR or JSRR advances the PC by one modulo 2^16, a BR that is not
taken too; a step that goes on with a TRAP leaves it (10_state.md R25; D4, log 10; log 4, log 5). -/
def Obligations.OnlyControlInstructionsRedirectThePC : Prop :=
  ∀ s t : State, step s = .next t →
    (s.phase = .fetch → redirects s.cond (decode (s.memRead s.pc).1) = false → t.pc.toNat = (s.pc.toNat + 1) % 65536) ∧
    (s.phase ≠ .fetch → t.pc = s.pc)

/-- An instruction changes no register but its destination, R7 for calls and traps, R0 for GETC and IN
(10_state.md R21, R22). -/
def Obligations.OnlyDestinationRegistersChange : Prop :=
  ∀ (i : Instr) (s t : State), exec i s = .next t → SameRegsExcept (destinations i) s t

/-- Memory "is changed only by store instructions (ST, STI, STR), by the read hook" (10_state.md R33): a step changes no word but
the one its store writes and the two keyboard words. -/
def Obligations.OnlyStoresAndTheHookChangeMemory : Prop :=
  ∀ s t : State, step s = .next t → ∀ a : Word, a ≠ 0xFE00#16 → a ≠ 0xFE02#16 →
    (s.phase = .fetch → storeAddress (fetch s).2 (decode (fetch s).1) ≠ some a) → t.mem.read a = s.mem.read a

/-- "Three things take characters, all from this one stream" (10_state.md R35; D22; the looks and what they bring, log 3): a step
takes characters from the front of the stream, at most one a look, and loses or reorders none; a step that runs no PUTS or PUTSP
looks at most once (a wait is log 4; an endless string, which looks once a round of memory, is log 5). -/
def Obligations.AStepTakesCharactersInOrder : Prop :=
  ∀ s t : State, step s = .next t → ∃ looks taken, Takes looks taken s t ∧
    (s.phase = .fetch ∧ readsString (decode (fetch s).1) = false ∨ s.phase = .waitGetc ∨ s.phase = .waitIn → looks ≤ 1)

/-- Console output events are emitted in order and never withdrawn, and only by OUT, PUTS, IN, PUTSP and HALT
(10_state.md R35; D13). -/
def Obligations.OutputOnlyGrowsAndOnlyByTraps : Prop :=
  (∀ s t : State, step s = .next t → s.output <+: t.output) ∧
  (∀ (i : Instr) (s t : State), exec i s = .next t → emits i = false → t.output = s.output)

/-- The invariant is kept by every step, from every state that meets it: memory in canonical form, COND one of P, Z, N
(10_state.md R28), and no TRAP in progress once RUN = 0 (the model's own clauses: log 4, log 17). -/
def Obligations.EveryStepKeepsTheInvariant : Prop :=
  ∀ s t : State, s.Inv → step s = .next t → t.Inv

/-! ### Reset and loading -/

/-- The invariant holds at reset, whatever R0 to R7 come up as (10_state.md R28, R37). -/
def Obligations.ResetMeetsTheInvariant : Prop :=
  State.reset.Inv ∧ ∀ gpr : Vector Word 8, (State.resetWith gpr).Inv

/-- What reset leaves: PC = 0x3000, COND = Z, RUN = 1, every word of memory 0, no output, the console input as it was, and R0 to
R7 at the open parameter, for every value of it (10_state.md R37, 70_reset_and_hazards.md R170; D5, log 1; D6, D24; the input,
log 3). The first step then runs the zero word at 0x3000, which is a no-op (70_reset_and_hazards.md R174, 30_encoding.md R70;
opcode 0 is BR by D1, log 7). -/
def Obligations.ResetLeavesTheStatedValues : Prop :=
  ∀ (gpr : Vector Word 8) (s : State), (s.hostReset gpr).pc = 0x3000#16 ∧ (s.hostReset gpr).cond = 2#3 ∧
    (s.hostReset gpr).run = true ∧ (∀ a, (s.hostReset gpr).mem.read a = 0#16) ∧ (s.hostReset gpr).output = [] ∧
    (∀ r : Reg, (s.hostReset gpr).readReg r = gpr[r]) ∧ SameInput s (s.hostReset gpr) ∧
    step (s.hostReset gpr) = .next ((s.hostReset gpr).jump 0x3001#16)

/-- An image is placed from its origin upward, one word an address, and stops at the top of the space; all other memory and all
else of the core stay (70_reset_and_hazards.md R172, R173; D19). -/
def Obligations.AnImageIsPlacedFromItsOrigin : Prop :=
  ∀ (s : State) (origin : Word) (ws : List Word),
    let t := s.loadImage (origin :: ws)
    (∀ k (h : k < ws.length), origin.toNat + k < 65536 → t.mem.read (BitVec.ofNat 16 (origin.toNat + k)) = ws[k]) ∧
    (∀ a : Word, a.toNat < origin.toNat ∨ origin.toNat + ws.length ≤ a.toNat → t.mem.read a = s.mem.read a) ∧
    t.regs = s.regs ∧ t.pc = s.pc ∧ t.cond = s.cond ∧ SameConsole s t ∧ SameMode s t
end

