-- ==== Sys2Proof/Laws/Encoding.lean ====
section
/-! SUPPORT. The fields of an encoded word, format by format (30_encoding.md R64), and that R72 reads back what was encoded. -/

namespace Sys2Proof

theorem extract_low {a b : Nat} (x : BitVec a) (y : BitVec b) : (x ++ y).extractLsb' 0 b = y := by
  ext i hi
  simp [BitVec.getLsbD_append, hi]

theorem extract_high {a b k n : Nat} (x : BitVec a) (y : BitVec b) (h : b ≤ k) :
    (x ++ y).extractLsb' k n = x.extractLsb' (k - b) n := by
  ext i hi
  have hb : ¬ k + i < b := by omega
  simp only [BitVec.getElem_extractLsb', BitVec.getLsbD_append, hb, if_false]
  rw [Nat.sub_add_comm h]

theorem bit_low {a b k : Nat} (x : BitVec a) (y : BitVec b) (h : k < b) : (x ++ y).getLsbD k = y.getLsbD k := by
  rw [BitVec.getLsbD_append, if_pos h]

theorem bit_high {a b k : Nat} (x : BitVec a) (y : BitVec b) (h : b ≤ k) : (x ++ y).getLsbD k = x.getLsbD (k - b) := by
  rw [BitVec.getLsbD_append, if_neg (by omega)]

@[simp] theorem bit_getLsbD_zero (b : Bool) : (bit b).getLsbD 0 = b := by cases b <;> rfl

/-- The opcode map is one to one (R66). -/
@[simp] theorem opcodeOf_number (op : Opcode) : opcodeOf op.number = op := by cases op <;> rfl

/-! ### Format OPR -/

@[simp] theorem wordOPR_opcode (op : Opcode) (dr sr1 sr2 : Reg) : opcodeField (wordOPR op dr sr1 sr2) = op.number := by
  unfold opcodeField wordOPR
  repeat rw [extract_high _ _ (by decide)]
  exact BitVec.extractLsb'_eq_self

@[simp] theorem wordOPR_dr (op : Opcode) (dr sr1 sr2 : Reg) : regField (wordOPR op dr sr1 sr2) 9 = dr := by
  unfold regField wordOPR
  repeat rw [extract_high _ _ (by decide)]
  exact congrArg BitVec.toFin (extract_low _ (regBits dr))

@[simp] theorem wordOPR_sr1 (op : Opcode) (dr sr1 sr2 : Reg) : regField (wordOPR op dr sr1 sr2) 6 = sr1 := by
  unfold regField wordOPR
  repeat rw [extract_high _ _ (by decide)]
  exact congrArg BitVec.toFin (extract_low _ (regBits sr1))

@[simp] theorem wordOPR_sr2 (op : Opcode) (dr sr1 sr2 : Reg) : regField (wordOPR op dr sr1 sr2) 0 = sr2 := by
  unfold regField wordOPR
  exact congrArg BitVec.toFin (extract_low _ (regBits sr2))

theorem wordOPR_flag (op : Opcode) (dr sr1 sr2 : Reg) : (wordOPR op dr sr1 sr2).getLsbD 5 = false := by
  unfold wordOPR
  repeat rw [bit_high _ _ (by decide)]
  rw [bit_low _ _ (by decide)]
  rfl

/-! ### Format OPI -/

@[simp] theorem wordOPI_opcode (op : Opcode) (dr sr1 : Reg) (imm : BitVec 5) : opcodeField (wordOPI op dr sr1 imm) = op.number := by
  unfold opcodeField wordOPI
  repeat rw [extract_high _ _ (by decide)]
  exact BitVec.extractLsb'_eq_self

@[simp] theorem wordOPI_dr (op : Opcode) (dr sr1 : Reg) (imm : BitVec 5) : regField (wordOPI op dr sr1 imm) 9 = dr := by
  unfold regField wordOPI
  repeat rw [extract_high _ _ (by decide)]
  exact congrArg BitVec.toFin (extract_low _ (regBits dr))

@[simp] theorem wordOPI_sr1 (op : Opcode) (dr sr1 : Reg) (imm : BitVec 5) : regField (wordOPI op dr sr1 imm) 6 = sr1 := by
  unfold regField wordOPI
  repeat rw [extract_high _ _ (by decide)]
  exact congrArg BitVec.toFin (extract_low _ (regBits sr1))

@[simp] theorem wordOPI_imm (op : Opcode) (dr sr1 : Reg) (imm : BitVec 5) : imm5Field (wordOPI op dr sr1 imm) = imm := extract_low _ imm

theorem wordOPI_flag (op : Opcode) (dr sr1 : Reg) (imm : BitVec 5) : (wordOPI op dr sr1 imm).getLsbD 5 = true := by
  unfold wordOPI
  repeat rw [bit_high _ _ (by decide)]
  rw [bit_low _ _ (by decide)]
  rfl

/-! ### Format NOT -/

@[simp] theorem wordNOT_opcode (dr sr : Reg) : opcodeField (wordNOT dr sr) = Opcode.NOT.number := by
  unfold opcodeField wordNOT
  repeat rw [extract_high _ _ (by decide)]
  exact BitVec.extractLsb'_eq_self

@[simp] theorem wordNOT_dr (dr sr : Reg) : regField (wordNOT dr sr) 9 = dr := by
  unfold regField wordNOT
  repeat rw [extract_high _ _ (by decide)]
  exact congrArg BitVec.toFin (extract_low _ (regBits dr))

@[simp] theorem wordNOT_sr (dr sr : Reg) : regField (wordNOT dr sr) 6 = sr := by
  unfold regField wordNOT
  repeat rw [extract_high _ _ (by decide)]
  exact congrArg BitVec.toFin (extract_low _ (regBits sr))

/-! ### Format BR -/

@[simp] theorem wordBR_opcode (n z p : Bool) (off : BitVec 9) : opcodeField (wordBR n z p off) = Opcode.BR.number := by
  unfold opcodeField wordBR
  repeat rw [extract_high _ _ (by decide)]
  exact BitVec.extractLsb'_eq_self

theorem wordBR_n (n z p : Bool) (off : BitVec 9) : (wordBR n z p off).getLsbD 11 = n := by
  unfold wordBR
  repeat rw [bit_high _ _ (by decide)]
  rw [bit_low _ _ (by decide)]
  exact bit_getLsbD_zero _

theorem wordBR_z (n z p : Bool) (off : BitVec 9) : (wordBR n z p off).getLsbD 10 = z := by
  unfold wordBR
  repeat rw [bit_high _ _ (by decide)]
  rw [bit_low _ _ (by decide)]
  exact bit_getLsbD_zero _

theorem wordBR_p (n z p : Bool) (off : BitVec 9) : (wordBR n z p off).getLsbD 9 = p := by
  unfold wordBR
  repeat rw [bit_high _ _ (by decide)]
  rw [bit_low _ _ (by decide)]
  exact bit_getLsbD_zero _

@[simp] theorem wordBR_off (n z p : Bool) (off : BitVec 9) : off9Field (wordBR n z p off) = off := extract_low _ off

/-! ### Format JMP -/

@[simp] theorem wordJMP_opcode (base : Reg) : opcodeField (wordJMP base) = Opcode.JMP.number := by
  unfold opcodeField wordJMP
  repeat rw [extract_high _ _ (by decide)]
  exact BitVec.extractLsb'_eq_self

@[simp] theorem wordJMP_base (base : Reg) : regField (wordJMP base) 6 = base := by
  unfold regField wordJMP
  repeat rw [extract_high _ _ (by decide)]
  exact congrArg BitVec.toFin (extract_low _ (regBits base))

/-! ### Format JSR -/

@[simp] theorem wordJSR_opcode (off : BitVec 11) : opcodeField (wordJSR off) = Opcode.JSR.number := by
  unfold opcodeField wordJSR
  repeat rw [extract_high _ _ (by decide)]
  exact BitVec.extractLsb'_eq_self

@[simp] theorem wordJSR_off (off : BitVec 11) : off11Field (wordJSR off) = off := extract_low _ off

theorem wordJSR_flag (off : BitVec 11) : (wordJSR off).getLsbD 11 = true := by
  unfold wordJSR
  repeat rw [bit_high _ _ (by decide)]
  rw [bit_low _ _ (by decide)]
  rfl

/-! ### Format JSRR -/

@[simp] theorem wordJSRR_opcode (base : Reg) : opcodeField (wordJSRR base) = Opcode.JSR.number := by
  unfold opcodeField wordJSRR
  repeat rw [extract_high _ _ (by decide)]
  exact BitVec.extractLsb'_eq_self

@[simp] theorem wordJSRR_base (base : Reg) : regField (wordJSRR base) 6 = base := by
  unfold regField wordJSRR
  repeat rw [extract_high _ _ (by decide)]
  exact congrArg BitVec.toFin (extract_low _ (regBits base))

theorem wordJSRR_flag (base : Reg) : (wordJSRR base).getLsbD 11 = false := by
  unfold wordJSRR
  repeat rw [bit_high _ _ (by decide)]
  rw [bit_low _ _ (by decide)]
  rfl

/-! ### Format PC9 -/

@[simp] theorem wordPC9_opcode (op : Opcode) (r : Reg) (off : BitVec 9) : opcodeField (wordPC9 op r off) = op.number := by
  unfold opcodeField wordPC9
  repeat rw [extract_high _ _ (by decide)]
  exact BitVec.extractLsb'_eq_self

@[simp] theorem wordPC9_reg (op : Opcode) (r : Reg) (off : BitVec 9) : regField (wordPC9 op r off) 9 = r := by
  unfold regField wordPC9
  repeat rw [extract_high _ _ (by decide)]
  exact congrArg BitVec.toFin (extract_low _ (regBits r))

@[simp] theorem wordPC9_off (op : Opcode) (r : Reg) (off : BitVec 9) : off9Field (wordPC9 op r off) = off := extract_low _ off

/-! ### Format BO6 -/

@[simp] theorem wordBO6_opcode (op : Opcode) (r base : Reg) (off : BitVec 6) : opcodeField (wordBO6 op r base off) = op.number := by
  unfold opcodeField wordBO6
  repeat rw [extract_high _ _ (by decide)]
  exact BitVec.extractLsb'_eq_self

@[simp] theorem wordBO6_reg (op : Opcode) (r base : Reg) (off : BitVec 6) : regField (wordBO6 op r base off) 9 = r := by
  unfold regField wordBO6
  repeat rw [extract_high _ _ (by decide)]
  exact congrArg BitVec.toFin (extract_low _ (regBits r))

@[simp] theorem wordBO6_base (op : Opcode) (r base : Reg) (off : BitVec 6) : regField (wordBO6 op r base off) 6 = base := by
  unfold regField wordBO6
  repeat rw [extract_high _ _ (by decide)]
  exact congrArg BitVec.toFin (extract_low _ (regBits base))

@[simp] theorem wordBO6_off (op : Opcode) (r base : Reg) (off : BitVec 6) : off6Field (wordBO6 op r base off) = off := extract_low _ off

/-! ### Format TRAP -/

@[simp] theorem wordTRAP_opcode (v : Byte) : opcodeField (wordTRAP v) = Opcode.TRAP.number := by
  unfold opcodeField wordTRAP
  repeat rw [extract_high _ _ (by decide)]
  exact BitVec.extractLsb'_eq_self

@[simp] theorem wordTRAP_vect (v : Byte) : vectField (wordTRAP v) = v := extract_low _ v

/-! ### Format NONE -/

@[simp] theorem wordNONE_opcode (op : Opcode) : opcodeField (wordNONE op) = op.number := by
  unfold opcodeField wordNONE
  repeat rw [extract_high _ _ (by decide)]
  exact BitVec.extractLsb'_eq_self

end Sys2Proof
end

