-- ==== Sys2Proof/Laws/Flags.lean ====
section
/-! SUPPORT. The condition code: what `condOf` gives and what BR's test means (10_state.md R27, R28; 41_control.md R91). -/

namespace Sys2Proof.Machine

@[simp] theorem condOf_zero : condOf 0#16 = 2#3 := rfl

theorem condOf_negative {v : Word} (h0 : v ≠ 0#16) (h : v.getLsbD 15 = true) : condOf v = 4#3 := by
  rw [condOf, if_neg h0, if_pos h]; rfl

theorem condOf_positive {v : Word} (h0 : v ≠ 0#16) (h : v.getLsbD 15 = false) : condOf v = 1#3 := by
  rw [condOf, if_neg h0, if_neg (by simp only [h]; decide)]; rfl

/-- The condition of a value is always one of the three. -/
theorem condOf_oneHot (v : Word) : CondOneHot (condOf v) := by
  by_cases h0 : v = 0#16
  · subst h0; exact .inr (.inl rfl)
  · cases h : v.getLsbD 15
    · exact .inl (condOf_positive h0 h)
    · exact .inr (.inr (condOf_negative h0 h))

/-- `condOf` is the derivation of R27. -/
theorem condFor_condOf (v : Word) : CondFor v (condOf v) := by
  refine ⟨fun h => by subst h; rfl, fun h0 h => condOf_negative h0 ?_, fun h0 h => condOf_positive h0 ?_⟩ <;>
    rwa [BitVec.msb_eq_getLsbD_last] at h

/-- With no condition bit the branch is never taken (30_encoding.md R70). -/
@[simp] theorem brTaken_none (c : BitVec 3) : brTaken false false false c = false := by simp [brTaken]

end Sys2Proof.Machine
end

