-- ==== Sys2Proof/Laws/Memory.lean ====
section
/-! SUPPORT. The laws of memory: a read after a write, and that a write keeps the canonical form. -/

namespace Sys2Proof.Machine

@[simp] theorem Memory.read_nil (a : Word) : Memory.read [] a = 0#16 := rfl

theorem Memory.lookup_insert_same (m : Memory) (a : Nat) (v : Word) (h : ∀ c ∈ m, c.1 ≠ a) :
    (m.insert a v).lookup a = v := by
  induction m with
  | nil => simp [Memory.insert, Memory.lookup]
  | cons c m ih =>
    obtain ⟨b, w⟩ := c
    have hb : a ≠ b := fun e => h (b, w) (by simp) e.symm
    by_cases hlt : a < b
    · simp [Memory.insert, Memory.lookup, hlt]
    · simp [Memory.insert, Memory.lookup, hlt, hb, ih (fun c hc => h c (by simp [hc]))]

theorem Memory.lookup_insert_ne (m : Memory) {a b : Nat} (v : Word) (h : b ≠ a) : (m.insert a v).lookup b = m.lookup b := by
  induction m with
  | nil => simp [Memory.insert, Memory.lookup, h]
  | cons c m ih =>
    obtain ⟨d, w⟩ := c
    by_cases hlt : a < d
    · simp [Memory.insert, Memory.lookup, hlt, h]
    · simp [Memory.insert, Memory.lookup, hlt, ih]

theorem Memory.lookup_filter_same (m : Memory) (a : Nat) : Memory.lookup (m.filter (fun c => c.1 != a)) a = 0#16 := by
  induction m with
  | nil => rfl
  | cons c m ih =>
    obtain ⟨d, w⟩ := c
    by_cases hd : d = a
    · simp [hd, ih]
    · simp [hd, Memory.lookup, Ne.symm hd, ih]

theorem Memory.lookup_filter_ne (m : Memory) {a b : Nat} (h : b ≠ a) :
    Memory.lookup (m.filter (fun c => c.1 != a)) b = m.lookup b := by
  induction m with
  | nil => rfl
  | cons c m ih =>
    obtain ⟨d, w⟩ := c
    by_cases hd : d = a
    · subst hd
      simp [Memory.lookup, h, ih]
    · simp [hd, Memory.lookup, ih]

/-- A read after a write to the same address gives the word written (20_memory.md R46). -/
@[simp] theorem Memory.read_write_same (m : Memory) (a v : Word) : (m.write a v).read a = v := by
  by_cases hv : v = Config.memReset
  · simp only [Memory.write, Memory.read, hv, if_true]
    exact m.lookup_filter_same a.toNat
  · simp only [Memory.write, Memory.read, hv, if_false]
    exact Memory.lookup_insert_same _ _ _ (by simp)

/-- A write leaves every other address alone. -/
theorem Memory.read_write_ne (m : Memory) {a b : Word} (v : Word) (h : b ≠ a) : (m.write a v).read b = m.read b := by
  have hn : b.toNat ≠ a.toNat := fun e => h (BitVec.eq_of_toNat_eq e)
  by_cases hv : v = Config.memReset
  · simp only [Memory.write, Memory.read, hv, if_true]
    exact m.lookup_filter_ne hn
  · simp only [Memory.write, Memory.read, hv, if_false]
    rw [Memory.lookup_insert_ne _ _ hn, m.lookup_filter_ne hn]

/-- The two laws in one. -/
theorem Memory.read_write (m : Memory) (a v b : Word) : (m.write a v).read b = if b = a then v else m.read b := by
  by_cases h : b = a
  · subst h; simp
  · simp [h, m.read_write_ne v h]

/-- The addresses of an insertion are the old ones and the new one. -/
theorem Memory.mem_insert (m : Memory) (a : Nat) (v : Word) (c : Nat × Word) :
    c ∈ m.insert a v ↔ c = (a, v) ∨ c ∈ m := by
  induction m with
  | nil => simp [Memory.insert]
  | cons d m ih =>
    obtain ⟨b, w⟩ := d
    by_cases hlt : a < b
    · simp [Memory.insert, hlt]
    · simp only [Memory.insert, hlt, if_false, List.mem_cons, ih]
      tauto

theorem Memory.pairwise_insert (m : Memory) (a : Nat) (v : Word) (hm : m.Pairwise (fun c d => c.1 < d.1))
    (ha : ∀ c ∈ m, c.1 ≠ a) : (m.insert a v).Pairwise (fun c d => c.1 < d.1) := by
  induction m with
  | nil => simp [Memory.insert]
  | cons d m ih =>
    obtain ⟨b, w⟩ := d
    have hb : b ≠ a := ha (b, w) (by simp)
    rw [List.pairwise_cons] at hm
    by_cases hlt : a < b
    · simp only [Memory.insert, hlt, if_true, List.pairwise_cons, List.mem_cons]
      refine ⟨?_, hm⟩
      rintro c (rfl | hc)
      · exact hlt
      · exact lt_trans hlt (hm.1 c hc)
    · simp only [Memory.insert, hlt, if_false, List.pairwise_cons]
      refine ⟨fun c hc => ?_, ih hm.2 (fun c hc => ha c (by simp [hc]))⟩
      rcases (Memory.mem_insert m a v c).1 hc with rfl | hc
      · exact lt_of_le_of_ne (not_lt.1 hlt) hb
      · exact hm.1 c hc

/-- The empty memory is in canonical form. -/
theorem Memory.wf_nil : Memory.wf [] := ⟨List.Pairwise.nil, fun _ h => absurd h List.not_mem_nil⟩

/-- A write keeps the canonical form. -/
theorem Memory.wf_write (m : Memory) (a v : Word) (hm : m.wf) : (m.write a v).wf := by
  obtain ⟨hp, hc⟩ := hm
  have hp' := hp.filter (fun c => c.1 != a.toNat)
  have hc' : ∀ c ∈ m.filter (fun c => c.1 != a.toNat), c.1 < Config.memWords ∧ c.2 ≠ Config.memReset :=
    fun c h => hc c (List.mem_of_mem_filter h)
  by_cases hv : v = Config.memReset
  · simp only [Memory.write, hv, if_true]
    exact ⟨hp', hc'⟩
  · simp only [Memory.write, hv, if_false]
    refine ⟨Memory.pairwise_insert _ _ _ hp' (by simp), fun c h => ?_⟩
    rcases (Memory.mem_insert _ _ _ c).1 h with rfl | h
    · exact ⟨a.isLt, hv⟩
    · exact hc' c h

@[simp] theorem State.read_memWrite_same (s : State) (a v : Word) : (s.memWrite a v).mem.read a = v :=
  s.mem.read_write_same a v

theorem State.read_memWrite_ne (s : State) {a b : Word} (v : Word) (h : b ≠ a) :
    (s.memWrite a v).mem.read b = s.mem.read b :=
  s.mem.read_write_ne v h

/-- A store keeps the canonical form. -/
theorem State.wf_memWrite (s : State) (a v : Word) (h : s.mem.wf) : (s.memWrite a v).mem.wf := s.mem.wf_write a v h

end Sys2Proof.Machine
end

