-- ==== Sys2Proof/Laws/State.lean ====
section
/-! SUPPORT. What each update of the state leaves alone: one lemma a field and update, true by definition, so that no later
proof unfolds a record update. -/

namespace Sys2Proof.Machine

/-! ### memWrite -/

@[simp] theorem State.memWrite_regs (s : State) (a v : Word) : (s.memWrite a v).regs = s.regs := rfl
@[simp] theorem State.memWrite_pc (s : State) (a v : Word) : (s.memWrite a v).pc = s.pc := rfl
@[simp] theorem State.memWrite_cond (s : State) (a v : Word) : (s.memWrite a v).cond = s.cond := rfl
@[simp] theorem State.memWrite_run (s : State) (a v : Word) : (s.memWrite a v).run = s.run := rfl
@[simp] theorem State.memWrite_mem (s : State) (a v : Word) : (s.memWrite a v).mem = s.mem.write a v := rfl
@[simp] theorem State.memWrite_kbq (s : State) (a v : Word) : (s.memWrite a v).kbq = s.kbq := rfl
@[simp] theorem State.memWrite_arrivals (s : State) (a v : Word) : (s.memWrite a v).arrivals = s.arrivals := rfl
@[simp] theorem State.memWrite_refill (s : State) (a v : Word) : (s.memWrite a v).refill = s.refill := rfl
@[simp] theorem State.memWrite_output (s : State) (a v : Word) : (s.memWrite a v).output = s.output := rfl
@[simp] theorem State.memWrite_phase (s : State) (a v : Word) : (s.memWrite a v).phase = s.phase := rfl

/-! ### writeReg -/

@[simp] theorem State.writeReg_regs (s : State) (r : Reg) (v : Word) : (s.writeReg r v).regs = s.regs.set r v := rfl
@[simp] theorem State.writeReg_pc (s : State) (r : Reg) (v : Word) : (s.writeReg r v).pc = s.pc := rfl
@[simp] theorem State.writeReg_cond (s : State) (r : Reg) (v : Word) : (s.writeReg r v).cond = s.cond := rfl
@[simp] theorem State.writeReg_run (s : State) (r : Reg) (v : Word) : (s.writeReg r v).run = s.run := rfl
@[simp] theorem State.writeReg_mem (s : State) (r : Reg) (v : Word) : (s.writeReg r v).mem = s.mem := rfl
@[simp] theorem State.writeReg_kbq (s : State) (r : Reg) (v : Word) : (s.writeReg r v).kbq = s.kbq := rfl
@[simp] theorem State.writeReg_arrivals (s : State) (r : Reg) (v : Word) : (s.writeReg r v).arrivals = s.arrivals := rfl
@[simp] theorem State.writeReg_refill (s : State) (r : Reg) (v : Word) : (s.writeReg r v).refill = s.refill := rfl
@[simp] theorem State.writeReg_output (s : State) (r : Reg) (v : Word) : (s.writeReg r v).output = s.output := rfl
@[simp] theorem State.writeReg_phase (s : State) (r : Reg) (v : Word) : (s.writeReg r v).phase = s.phase := rfl

/-! ### jump -/

@[simp] theorem State.jump_regs (s : State) (v : Word) : (s.jump v).regs = s.regs := rfl
@[simp] theorem State.jump_pc (s : State) (v : Word) : (s.jump v).pc = v := rfl
@[simp] theorem State.jump_cond (s : State) (v : Word) : (s.jump v).cond = s.cond := rfl
@[simp] theorem State.jump_run (s : State) (v : Word) : (s.jump v).run = s.run := rfl
@[simp] theorem State.jump_mem (s : State) (v : Word) : (s.jump v).mem = s.mem := rfl
@[simp] theorem State.jump_kbq (s : State) (v : Word) : (s.jump v).kbq = s.kbq := rfl
@[simp] theorem State.jump_arrivals (s : State) (v : Word) : (s.jump v).arrivals = s.arrivals := rfl
@[simp] theorem State.jump_refill (s : State) (v : Word) : (s.jump v).refill = s.refill := rfl
@[simp] theorem State.jump_output (s : State) (v : Word) : (s.jump v).output = s.output := rfl
@[simp] theorem State.jump_phase (s : State) (v : Word) : (s.jump v).phase = s.phase := rfl

/-! ### emit -/

@[simp] theorem State.emit_regs (s : State) (bs : List Byte) : (s.emit bs).regs = s.regs := rfl
@[simp] theorem State.emit_pc (s : State) (bs : List Byte) : (s.emit bs).pc = s.pc := rfl
@[simp] theorem State.emit_cond (s : State) (bs : List Byte) : (s.emit bs).cond = s.cond := rfl
@[simp] theorem State.emit_run (s : State) (bs : List Byte) : (s.emit bs).run = s.run := rfl
@[simp] theorem State.emit_mem (s : State) (bs : List Byte) : (s.emit bs).mem = s.mem := rfl
@[simp] theorem State.emit_kbq (s : State) (bs : List Byte) : (s.emit bs).kbq = s.kbq := rfl
@[simp] theorem State.emit_arrivals (s : State) (bs : List Byte) : (s.emit bs).arrivals = s.arrivals := rfl
@[simp] theorem State.emit_refill (s : State) (bs : List Byte) : (s.emit bs).refill = s.refill := rfl
@[simp] theorem State.emit_output (s : State) (bs : List Byte) : (s.emit bs).output = s.output ++ bs.map ConsoleEvent.out := rfl
@[simp] theorem State.emit_phase (s : State) (bs : List Byte) : (s.emit bs).phase = s.phase := rfl

/-! ### flush -/

@[simp] theorem State.flush_regs (s : State) : (s.flush).regs = s.regs := rfl
@[simp] theorem State.flush_pc (s : State) : (s.flush).pc = s.pc := rfl
@[simp] theorem State.flush_cond (s : State) : (s.flush).cond = s.cond := rfl
@[simp] theorem State.flush_run (s : State) : (s.flush).run = s.run := rfl
@[simp] theorem State.flush_mem (s : State) : (s.flush).mem = s.mem := rfl
@[simp] theorem State.flush_kbq (s : State) : (s.flush).kbq = s.kbq := rfl
@[simp] theorem State.flush_arrivals (s : State) : (s.flush).arrivals = s.arrivals := rfl
@[simp] theorem State.flush_refill (s : State) : (s.flush).refill = s.refill := rfl
@[simp] theorem State.flush_output (s : State) : (s.flush).output = s.output ++ [ConsoleEvent.flush] := rfl
@[simp] theorem State.flush_phase (s : State) : (s.flush).phase = s.phase := rfl

/-! ### setcc -/

@[simp] theorem State.setcc_regs (s : State) (r : Reg) : (s.setcc r).regs = s.regs := rfl
@[simp] theorem State.setcc_pc (s : State) (r : Reg) : (s.setcc r).pc = s.pc := rfl
@[simp] theorem State.setcc_cond (s : State) (r : Reg) : (s.setcc r).cond = condOf (s.readReg r) := rfl
@[simp] theorem State.setcc_run (s : State) (r : Reg) : (s.setcc r).run = s.run := rfl
@[simp] theorem State.setcc_mem (s : State) (r : Reg) : (s.setcc r).mem = s.mem := rfl
@[simp] theorem State.setcc_kbq (s : State) (r : Reg) : (s.setcc r).kbq = s.kbq := rfl
@[simp] theorem State.setcc_arrivals (s : State) (r : Reg) : (s.setcc r).arrivals = s.arrivals := rfl
@[simp] theorem State.setcc_refill (s : State) (r : Reg) : (s.setcc r).refill = s.refill := rfl
@[simp] theorem State.setcc_output (s : State) (r : Reg) : (s.setcc r).output = s.output := rfl
@[simp] theorem State.setcc_phase (s : State) (r : Reg) : (s.setcc r).phase = s.phase := rfl

/-! ### writeRegCC -/

@[simp] theorem State.writeRegCC_regs (s : State) (r : Reg) (v : Word) : (s.writeRegCC r v).regs = s.regs.set r v := rfl
@[simp] theorem State.writeRegCC_pc (s : State) (r : Reg) (v : Word) : (s.writeRegCC r v).pc = s.pc := rfl
@[simp] theorem State.writeRegCC_run (s : State) (r : Reg) (v : Word) : (s.writeRegCC r v).run = s.run := rfl
@[simp] theorem State.writeRegCC_mem (s : State) (r : Reg) (v : Word) : (s.writeRegCC r v).mem = s.mem := rfl
@[simp] theorem State.writeRegCC_kbq (s : State) (r : Reg) (v : Word) : (s.writeRegCC r v).kbq = s.kbq := rfl
@[simp] theorem State.writeRegCC_arrivals (s : State) (r : Reg) (v : Word) : (s.writeRegCC r v).arrivals = s.arrivals := rfl
@[simp] theorem State.writeRegCC_refill (s : State) (r : Reg) (v : Word) : (s.writeRegCC r v).refill = s.refill := rfl
@[simp] theorem State.writeRegCC_output (s : State) (r : Reg) (v : Word) : (s.writeRegCC r v).output = s.output := rfl
@[simp] theorem State.writeRegCC_phase (s : State) (r : Reg) (v : Word) : (s.writeRegCC r v).phase = s.phase := rfl

/-! ### trapEntry -/

@[simp] theorem State.trapEntry_regs (s : State) : (s.trapEntry).regs = s.regs.set 7 s.pc := rfl
@[simp] theorem State.trapEntry_pc (s : State) : (s.trapEntry).pc = s.pc := rfl
@[simp] theorem State.trapEntry_cond (s : State) : (s.trapEntry).cond = s.cond := rfl
@[simp] theorem State.trapEntry_run (s : State) : (s.trapEntry).run = s.run := rfl
@[simp] theorem State.trapEntry_mem (s : State) : (s.trapEntry).mem = s.mem := rfl
@[simp] theorem State.trapEntry_kbq (s : State) : (s.trapEntry).kbq = s.kbq := rfl
@[simp] theorem State.trapEntry_arrivals (s : State) : (s.trapEntry).arrivals = s.arrivals := rfl
@[simp] theorem State.trapEntry_refill (s : State) : (s.trapEntry).refill = s.refill := rfl
@[simp] theorem State.trapEntry_output (s : State) : (s.trapEntry).output = s.output := rfl
@[simp] theorem State.trapEntry_phase (s : State) : (s.trapEntry).phase = s.phase := rfl

/-! ### link -/

@[simp] theorem State.link_regs (s : State) : (s.link).regs = s.regs.set 7 s.pc := rfl
@[simp] theorem State.link_pc (s : State) : (s.link).pc = s.pc := rfl
@[simp] theorem State.link_cond (s : State) : (s.link).cond = s.cond := rfl
@[simp] theorem State.link_run (s : State) : (s.link).run = s.run := rfl
@[simp] theorem State.link_mem (s : State) : (s.link).mem = s.mem := rfl
@[simp] theorem State.link_kbq (s : State) : (s.link).kbq = s.kbq := rfl
@[simp] theorem State.link_arrivals (s : State) : (s.link).arrivals = s.arrivals := rfl
@[simp] theorem State.link_refill (s : State) : (s.link).refill = s.refill := rfl
@[simp] theorem State.link_output (s : State) : (s.link).output = s.output := rfl
@[simp] theorem State.link_phase (s : State) : (s.link).phase = s.phase := rfl

/-! ### takeChar -/

@[simp] theorem State.takeChar_regs (s : State) (c : Byte) : (s.takeChar c).regs = s.regs.set 0 (widen c) := rfl
@[simp] theorem State.takeChar_pc (s : State) (c : Byte) : (s.takeChar c).pc = s.pc := rfl
@[simp] theorem State.takeChar_run (s : State) (c : Byte) : (s.takeChar c).run = s.run := rfl
@[simp] theorem State.takeChar_mem (s : State) (c : Byte) : (s.takeChar c).mem = s.mem := rfl
@[simp] theorem State.takeChar_kbq (s : State) (c : Byte) : (s.takeChar c).kbq = s.kbq := rfl
@[simp] theorem State.takeChar_arrivals (s : State) (c : Byte) : (s.takeChar c).arrivals = s.arrivals := rfl
@[simp] theorem State.takeChar_refill (s : State) (c : Byte) : (s.takeChar c).refill = s.refill := rfl
@[simp] theorem State.takeChar_output (s : State) (c : Byte) : (s.takeChar c).output = s.output := rfl
@[simp] theorem State.takeChar_phase (s : State) (c : Byte) : (s.takeChar c).phase = .fetch := rfl

/-! ### Register reads -/

@[simp] theorem State.readReg_writeReg_same (s : State) (r : Reg) (v : Word) : (s.writeReg r v).readReg r = v := by
  simp [State.readReg, State.writeReg]

theorem State.readReg_writeReg_ne (s : State) {r q : Reg} (v : Word) (h : q ≠ r) :
    (s.writeReg r v).readReg q = s.readReg q := by
  have h' : (r : Nat) ≠ q := fun e => h (Fin.ext e.symm)
  simp [State.readReg, State.writeReg, h']

@[simp] theorem State.readReg_writeRegCC_same (s : State) (r : Reg) (v : Word) : (s.writeRegCC r v).readReg r = v :=
  s.readReg_writeReg_same r v

theorem State.readReg_writeRegCC_ne (s : State) {r q : Reg} (v : Word) (h : q ≠ r) :
    (s.writeRegCC r v).readReg q = s.readReg q :=
  s.readReg_writeReg_ne v h

@[simp] theorem State.writeRegCC_cond (s : State) (r : Reg) (v : Word) : (s.writeRegCC r v).cond = condOf v := by
  simp [State.writeRegCC]

@[simp] theorem State.readReg_takeChar_zero (s : State) (c : Byte) : (s.takeChar c).readReg 0 = widen c :=
  s.readReg_writeReg_same 0 (widen c)

@[simp] theorem State.takeChar_cond (s : State) (c : Byte) : (s.takeChar c).cond = condOf (widen c) :=
  s.writeRegCC_cond 0 (widen c)

@[simp] theorem State.readReg_trapEntry_seven (s : State) : s.trapEntry.readReg 7 = s.pc := s.readReg_writeReg_same 7 s.pc

theorem State.readReg_trapEntry_ne (s : State) {q : Reg} (h : q ≠ 7) : s.trapEntry.readReg q = s.readReg q :=
  s.readReg_writeReg_ne s.pc h

@[simp] theorem State.readReg_link_seven (s : State) : s.link.readReg 7 = s.pc := s.readReg_writeReg_same 7 s.pc

theorem State.readReg_link_ne (s : State) {q : Reg} (h : q ≠ 7) : s.link.readReg q = s.readReg q :=
  s.readReg_writeReg_ne s.pc h

/-- Reading a register looks at the registers only. -/
theorem State.readReg_congr {s t : State} (h : t.regs = s.regs) (r : Reg) : t.readReg r = s.readReg r := by
  simp [State.readReg, h]

@[simp] theorem State.readReg_memWrite (s : State) (a v : Word) (r : Reg) : (s.memWrite a v).readReg r = s.readReg r := rfl
@[simp] theorem State.readReg_jump (s : State) (v : Word) (r : Reg) : (s.jump v).readReg r = s.readReg r := rfl
@[simp] theorem State.readReg_emit (s : State) (bs : List Byte) (r : Reg) : (s.emit bs).readReg r = s.readReg r := rfl
@[simp] theorem State.readReg_flush (s : State) (r : Reg) : (s.flush).readReg r = s.readReg r := rfl
@[simp] theorem State.readReg_setcc (s : State) (q : Reg) (r : Reg) : (s.setcc q).readReg r = s.readReg r := rfl

end Sys2Proof.Machine
end

