-- ==== Sys2Proof/Laws/Ops.lean ====
section
/-! SUPPORT. What the shared operations can do: a look at the input, the keyboard hook, a memory read and the fetch
(10_state.md R35; 20_memory.md R43 to R45). -/

namespace Sys2Proof.Machine

/-! ### A look at the input stream -/

/-- What comes in over two stretches of looks. -/
theorem coming_add (n m : Nat) (arrivals : List (List Byte)) (refill : List Byte) :
    coming (n + m) arrivals refill = coming n arrivals refill ++ coming m (arrivals.drop n) refill := by
  induction n generalizing arrivals with
  | zero => simp [coming]
  | succ n ih => rw [Nat.add_right_comm, coming, ih, coming, List.append_assoc, List.drop_tail]

/-- No look takes nothing. -/
theorem Takes.refl {s t : State} (h : SameInput s t) : Takes 0 [] s t :=
  ⟨by simp [coming, h.1], h.2.1, h.2.2, le_rfl⟩

/-- Two stretches of looks are one. -/
theorem Takes.trans {n m : Nat} {x y : List Byte} {s t u : State} (h : Takes n x s t) (k : Takes m y t u) :
    Takes (n + m) (x ++ y) s u where
  order := by
    have hk := k.order
    rw [h.arrivals, h.refill] at hk
    rw [coming_add, ← List.append_assoc, h.order, List.append_assoc, hk, List.append_assoc]
  arrivals := by rw [k.arrivals, h.arrivals, List.drop_drop]
  refill := k.refill.trans h.refill
  oneALook := by rw [List.length_append]; exact Nat.add_le_add h.oneALook k.oneALook

/-- What a look sees is what is pending. -/
theorem State.arrive_kbq (s : State) : s.arrive.kbq = s.pending := rfl

/-- A look finds a character or it does not; it touches the input only. -/
theorem State.poll_cases (s : State) :
    (∃ c q, s.arrive.kbq = c :: q ∧ s.poll = (some c, { s with kbq := q, arrivals := s.arrivals.tail })) ∨
      (s.arrive.kbq = [] ∧ s.poll = (none, { s with kbq := [], arrivals := s.arrivals.tail })) := by
  unfold State.poll
  split
  · rename_i h
    exact .inr ⟨h, by rw [← h]; rfl⟩
  · rename_i c q h
    exact .inl ⟨c, q, h, rfl⟩

/-- A look takes the front of the stream. -/
theorem State.poll_takes (s : State) : Takes 1 s.poll.1.toList s s.poll.2 := by
  rcases s.poll_cases with ⟨c, q, h, e⟩ | ⟨h, e⟩ <;> rw [e] <;> rw [s.arrive_kbq, State.pending] at h
  · exact ⟨by simpa [coming] using h, by simp, rfl, by simp⟩
  · exact ⟨by simpa [coming] using h, by simp, rfl, by simp⟩

theorem State.poll_ready {s : State} {c : Byte} {rest : List Byte} (h : s.pending = c :: rest) :
    s.poll = (some c, { s with kbq := rest, arrivals := s.arrivals.tail }) := by
  rcases s.poll_cases with ⟨d, q, h1, h2⟩ | ⟨h1, h2⟩ <;> rw [s.arrive_kbq, h] at h1 <;> cases h1
  exact h2

theorem State.poll_none {s : State} (h : s.pending = []) :
    s.poll = (none, { s with kbq := [], arrivals := s.arrivals.tail }) := by
  rcases s.poll_cases with ⟨d, q, h1, h2⟩ | ⟨h1, h2⟩
  · rw [s.arrive_kbq, h] at h1
    cases h1
  · exact h2

@[simp] theorem widen_toNat (c : Byte) : (widen c).toNat = c.toNat := by
  have := c.isLt
  rw [widen, BitVec.toNat_setWidth, Nat.mod_eq_of_lt (by omega)]

@[simp] theorem State.poll_regs (s : State) : s.poll.2.regs = s.regs := by
  rcases s.poll_cases with ⟨_, _, _, h⟩ | ⟨_, h⟩ <;> rw [h]
@[simp] theorem State.poll_pc (s : State) : s.poll.2.pc = s.pc := by
  rcases s.poll_cases with ⟨_, _, _, h⟩ | ⟨_, h⟩ <;> rw [h]
@[simp] theorem State.poll_cond (s : State) : s.poll.2.cond = s.cond := by
  rcases s.poll_cases with ⟨_, _, _, h⟩ | ⟨_, h⟩ <;> rw [h]
@[simp] theorem State.poll_run (s : State) : s.poll.2.run = s.run := by
  rcases s.poll_cases with ⟨_, _, _, h⟩ | ⟨_, h⟩ <;> rw [h]
@[simp] theorem State.poll_mem (s : State) : s.poll.2.mem = s.mem := by
  rcases s.poll_cases with ⟨_, _, _, h⟩ | ⟨_, h⟩ <;> rw [h]
@[simp] theorem State.poll_output (s : State) : s.poll.2.output = s.output := by
  rcases s.poll_cases with ⟨_, _, _, h⟩ | ⟨_, h⟩ <;> rw [h]
@[simp] theorem State.poll_phase (s : State) : s.poll.2.phase = s.phase := by
  rcases s.poll_cases with ⟨_, _, _, h⟩ | ⟨_, h⟩ <;> rw [h]

/-! ### The keyboard hook and a memory read -/

/-- The hook, in its two cases: a ready poll takes one character, and a poll that finds none only clears the status word. -/
theorem State.kbdHook_cases (s : State) :
    (∃ c t, s.poll = (some c, t) ∧ s.kbdHook = (t.memWrite Config.kbsr 0x8000#16).memWrite Config.kbdr (widen c)) ∨
      (∃ t, s.poll = (none, t) ∧ s.kbdHook = t.memWrite Config.kbsr 0#16) := by
  unfold State.kbdHook
  split
  · rename_i c t h
    exact .inl ⟨c, t, h, rfl⟩
  · rename_i t h
    exact .inr ⟨t, h, rfl⟩

theorem State.kbdHook_ready {s : State} {c : Byte} {rest : List Byte} (h : s.pending = c :: rest) :
    s.kbdHook = (({ s with kbq := rest, arrivals := s.arrivals.tail } : State).memWrite Config.kbsr 0x8000#16).memWrite
      Config.kbdr (widen c) := by
  simp only [State.kbdHook, State.poll_ready h]

theorem State.kbdHook_none {s : State} (h : s.pending = []) :
    s.kbdHook = ({ s with kbq := [], arrivals := s.arrivals.tail } : State).memWrite Config.kbsr 0#16 := by
  simp only [State.kbdHook, State.poll_none h]

/-- What a hook or a memory read keeps, all of it at once: everything but the input, by at most one character, and the two
keyboard words. -/
structure ReadKeeps (s t : State) : Prop where
  regs : t.regs = s.regs
  pc : t.pc = s.pc
  cond : t.cond = s.cond
  run : t.run = s.run
  phase : t.phase = s.phase
  output : t.output = s.output
  wf : s.mem.wf → t.mem.wf
  memory : SameMemoryExcept [Config.kbsr, Config.kbdr] s t
  input : ∃ looks taken, looks ≤ 1 ∧ Takes looks taken s t

theorem State.kbdHook_keeps (s : State) : ReadKeeps s s.kbdHook := by
  have hs := s.poll_takes
  rcases s.kbdHook_cases with ⟨c, t, hp, hk⟩ | ⟨t, hp, hk⟩
  · have h1 := s.poll_regs; have h2 := s.poll_pc; have h3 := s.poll_cond; have h4 := s.poll_run
    have h5 := s.poll_mem; have h6 := s.poll_output; have h7 := s.poll_phase
    rw [hp] at h1 h2 h3 h4 h5 h6 h7 hs
    rw [hk]
    refine ⟨h1, h2, h3, h4, h7, h6, fun w => ?_, fun a ha => ?_, 1, [c], le_rfl, hs.order, hs.arrivals, hs.refill, hs.oneALook⟩
    · exact State.wf_memWrite _ _ _ (State.wf_memWrite _ _ _ (h5.symm ▸ w : t.mem.wf))
    · simp only [List.mem_cons, List.not_mem_nil, or_false, not_or] at ha
      simp only [State.memWrite_mem]
      rw [Memory.read_write_ne _ _ ha.2, Memory.read_write_ne _ _ ha.1]
      exact congrArg (·.read a) h5
  · have h1 := s.poll_regs; have h2 := s.poll_pc; have h3 := s.poll_cond; have h4 := s.poll_run
    have h5 := s.poll_mem; have h6 := s.poll_output; have h7 := s.poll_phase
    rw [hp] at h1 h2 h3 h4 h5 h6 h7 hs
    rw [hk]
    refine ⟨h1, h2, h3, h4, h7, h6, fun w => ?_, fun a ha => ?_, 1, [], le_rfl, hs.order, hs.arrivals, hs.refill, hs.oneALook⟩
    · exact State.wf_memWrite _ _ _ (h5.symm ▸ w : t.mem.wf)
    · simp only [List.mem_cons, List.not_mem_nil, or_false, not_or] at ha
      simp only [State.memWrite_mem]
      rw [Memory.read_write_ne _ _ ha.1]
      exact congrArg (·.read a) h5

theorem State.readHook_kbsr (s : State) : s.readHook Config.kbsr = s.kbdHook := by simp [State.readHook]

theorem State.readHook_ne (s : State) {a : Word} (h : a ≠ Config.kbsr) : s.readHook a = s := by simp [State.readHook, h]

/-- A read elsewhere than 0xFE00 has no side effect (20_memory.md R43). -/
theorem State.memRead_ne (s : State) {a : Word} (h : a ≠ Config.kbsr) : s.memRead a = (s.mem.read a, s) := by
  simp [State.memRead, s.readHook_ne h]

/-- A read at 0xFE00 gives 0x8000 or 0 (20_memory.md R44 (a)). -/
theorem State.memRead_kbsr (s : State) : (s.memRead Config.kbsr).1 = 0x8000#16 ∨ (s.memRead Config.kbsr).1 = 0#16 := by
  have hne : Config.kbsr ≠ Config.kbdr := by decide
  rcases s.kbdHook_cases with ⟨c, t, _, h⟩ | ⟨t, _, h⟩
  · left
    simp [State.memRead, s.readHook_kbsr, h, Memory.read_write_ne _ _ hne]
  · right
    simp [State.memRead, s.readHook_kbsr, h]

/-- What any memory read keeps. -/
theorem State.memRead_keeps (s : State) (a : Word) : ReadKeeps s (s.memRead a).2 := by
  by_cases h : a = Config.kbsr
  · subst h
    simpa [State.memRead, s.readHook_kbsr] using s.kbdHook_keeps
  · rw [s.memRead_ne h]
    exact ⟨rfl, rfl, rfl, rfl, rfl, rfl, id, fun _ _ => rfl, 0, [], by simp, .refl ⟨rfl, rfl, rfl⟩⟩

@[simp] theorem State.memRead_regs (s : State) (a : Word) : (s.memRead a).2.regs = s.regs := (s.memRead_keeps a).regs
@[simp] theorem State.memRead_pc (s : State) (a : Word) : (s.memRead a).2.pc = s.pc := (s.memRead_keeps a).pc
@[simp] theorem State.memRead_cond (s : State) (a : Word) : (s.memRead a).2.cond = s.cond := (s.memRead_keeps a).cond
@[simp] theorem State.memRead_run (s : State) (a : Word) : (s.memRead a).2.run = s.run := (s.memRead_keeps a).run
@[simp] theorem State.memRead_phase (s : State) (a : Word) : (s.memRead a).2.phase = s.phase := (s.memRead_keeps a).phase
@[simp] theorem State.memRead_output (s : State) (a : Word) : (s.memRead a).2.output = s.output := (s.memRead_keeps a).output

@[simp] theorem State.readReg_memRead (s : State) (a : Word) (r : Reg) : (s.memRead a).2.readReg r = s.readReg r :=
  State.readReg_congr (s.memRead_regs a) r

/-- The value a read gives is the word its state holds there. -/
theorem State.memRead_value (s : State) (a : Word) : (s.memRead a).1 = (s.memRead a).2.mem.read a := rfl

/-! ### Fetch -/

/-- The fetch advances the PC by one, modulo 2^16, and is otherwise a memory read (10_state.md R24, R25). -/
theorem fetch_eq (s : State) : fetch s = ((s.memRead s.pc).1, (s.memRead s.pc).2.jump (s.pc + 1#16)) := rfl

@[simp] theorem fetch_pc (s : State) : (fetch s).2.pc = s.pc + 1#16 := rfl
@[simp] theorem fetch_regs (s : State) : (fetch s).2.regs = s.regs := s.memRead_regs s.pc
@[simp] theorem fetch_cond (s : State) : (fetch s).2.cond = s.cond := s.memRead_cond s.pc
@[simp] theorem fetch_run (s : State) : (fetch s).2.run = s.run := s.memRead_run s.pc
@[simp] theorem fetch_phase (s : State) : (fetch s).2.phase = s.phase := s.memRead_phase s.pc
@[simp] theorem fetch_output (s : State) : (fetch s).2.output = s.output := s.memRead_output s.pc
@[simp] theorem fetch_mem (s : State) : (fetch s).2.mem = (s.memRead s.pc).2.mem := rfl

end Sys2Proof.Machine
end

