-- ==== Sys2Proof/Laws/PerInstr.lean ====
section
/-! SUPPORT. The per-instruction family `RoundTrip`: the decode algorithm of R72 reads the encoded word of every instruction as
the core instruction it stands for, every operand at every value (30_encoding.md R64, R72, R74). -/

namespace Sys2Proof.Laws.RoundTrip

/-- R72 reads the word of `i` as the core instruction that `i` names. -/
def Statement (i : Instr) : Prop := decodeCore (encode i) = expand i

theorem br (n z p : Bool) (off : BitVec 9) : Statement (.br n z p off) := by
  simp only [Statement, encode, expand, decodeCore, wordBR_opcode, wordBR_n, wordBR_z, wordBR_p, wordBR_off, opcodeOf_number]

theorem addReg (dr sr1 sr2 : Reg) : Statement (.addReg dr sr1 sr2) := by
  simp only [Statement, encode, expand, decodeCore, wordOPR_opcode, wordOPR_flag, wordOPR_dr, wordOPR_sr1, wordOPR_sr2, opcodeOf_number, Bool.false_eq_true, if_false]

theorem addImm (dr sr1 : Reg) (imm : BitVec 5) : Statement (.addImm dr sr1 imm) := by
  simp only [Statement, encode, expand, decodeCore, wordOPI_opcode, wordOPI_flag, wordOPI_dr, wordOPI_sr1, wordOPI_imm, opcodeOf_number, if_true]

theorem ld (dr : Reg) (off : BitVec 9) : Statement (.ld dr off) := by
  simp only [Statement, encode, expand, decodeCore, wordPC9_opcode, wordPC9_reg, wordPC9_off, opcodeOf_number]

theorem st (sr : Reg) (off : BitVec 9) : Statement (.st sr off) := by
  simp only [Statement, encode, expand, decodeCore, wordPC9_opcode, wordPC9_reg, wordPC9_off, opcodeOf_number]

theorem jsr (off : BitVec 11) : Statement (.jsr off) := by
  simp only [Statement, encode, expand, decodeCore, wordJSR_opcode, wordJSR_flag, wordJSR_off, opcodeOf_number, if_true]

theorem jsrr (base : Reg) : Statement (.jsrr base) := by
  simp only [Statement, encode, expand, decodeCore, wordJSRR_opcode, wordJSRR_flag, wordJSRR_base, opcodeOf_number, Bool.false_eq_true, if_false]

theorem andReg (dr sr1 sr2 : Reg) : Statement (.andReg dr sr1 sr2) := by
  simp only [Statement, encode, expand, decodeCore, wordOPR_opcode, wordOPR_flag, wordOPR_dr, wordOPR_sr1, wordOPR_sr2, opcodeOf_number, Bool.false_eq_true, if_false]

theorem andImm (dr sr1 : Reg) (imm : BitVec 5) : Statement (.andImm dr sr1 imm) := by
  simp only [Statement, encode, expand, decodeCore, wordOPI_opcode, wordOPI_flag, wordOPI_dr, wordOPI_sr1, wordOPI_imm, opcodeOf_number, if_true]

theorem ldr (dr base : Reg) (off : BitVec 6) : Statement (.ldr dr base off) := by
  simp only [Statement, encode, expand, decodeCore, wordBO6_opcode, wordBO6_reg, wordBO6_base, wordBO6_off, opcodeOf_number]

theorem str (sr base : Reg) (off : BitVec 6) : Statement (.str sr base off) := by
  simp only [Statement, encode, expand, decodeCore, wordBO6_opcode, wordBO6_reg, wordBO6_base, wordBO6_off, opcodeOf_number]

theorem rti : Statement .rti := by
  simp only [Statement, encode, expand, decodeCore, wordNONE_opcode, opcodeOf_number]

theorem notReg (dr sr : Reg) : Statement (.notReg dr sr) := by
  simp only [Statement, encode, expand, decodeCore, wordNOT_opcode, wordNOT_dr, wordNOT_sr, opcodeOf_number]

theorem ldi (dr : Reg) (off : BitVec 9) : Statement (.ldi dr off) := by
  simp only [Statement, encode, expand, decodeCore, wordPC9_opcode, wordPC9_reg, wordPC9_off, opcodeOf_number]

theorem sti (sr : Reg) (off : BitVec 9) : Statement (.sti sr off) := by
  simp only [Statement, encode, expand, decodeCore, wordPC9_opcode, wordPC9_reg, wordPC9_off, opcodeOf_number]

theorem jmp (base : Reg) : Statement (.jmp base) := by
  simp only [Statement, encode, expand, decodeCore, wordJMP_opcode, wordJMP_base, opcodeOf_number]

theorem res : Statement .res := by
  simp only [Statement, encode, expand, decodeCore, wordNONE_opcode, opcodeOf_number]

theorem lea (dr : Reg) (off : BitVec 9) : Statement (.lea dr off) := by
  simp only [Statement, encode, expand, decodeCore, wordPC9_opcode, wordPC9_reg, wordPC9_off, opcodeOf_number]

theorem trap (vect : Byte) : Statement (.trap vect) := by
  simp only [Statement, encode, expand, decodeCore, wordTRAP_opcode, wordTRAP_vect, opcodeOf_number]

theorem getc : Statement .getc := by
  simp only [Statement, encode, expand, decodeCore, wordTRAP_opcode, wordTRAP_vect, opcodeOf_number]

theorem out : Statement .out := by
  simp only [Statement, encode, expand, decodeCore, wordTRAP_opcode, wordTRAP_vect, opcodeOf_number]

theorem puts : Statement .puts := by
  simp only [Statement, encode, expand, decodeCore, wordTRAP_opcode, wordTRAP_vect, opcodeOf_number]

theorem inChar : Statement .inChar := by
  simp only [Statement, encode, expand, decodeCore, wordTRAP_opcode, wordTRAP_vect, opcodeOf_number]

theorem putsp : Statement .putsp := by
  simp only [Statement, encode, expand, decodeCore, wordTRAP_opcode, wordTRAP_vect, opcodeOf_number]

theorem halt : Statement .halt := by
  simp only [Statement, encode, expand, decodeCore, wordTRAP_opcode, wordTRAP_vect, opcodeOf_number]

theorem trapUnrecognised (vect : Byte) : Statement (.trapUnrecognised vect) := by
  simp only [Statement, encode, expand, decodeCore, wordTRAP_opcode, wordTRAP_vect, opcodeOf_number]

theorem ret : Statement .ret := by
  simp only [Statement, encode, expand, decodeCore, wordJMP_opcode, wordJMP_base, opcodeOf_number]

theorem nop (off : BitVec 9) : Statement (.nop off) := by
  simp only [Statement, encode, expand, decodeCore, wordBR_opcode, wordBR_n, wordBR_z, wordBR_p, wordBR_off, opcodeOf_number]

end Sys2Proof.Laws.RoundTrip
end

