-- ==== Sys2Proof/Laws/Results.lean ====
section
/-! SUPPORT. What the two ways of giving a register a value and COND leave: an operate result and a load (10_state.md R27, R29). -/

namespace Sys2Proof.Machine

/-- A register write that sets the condition is an operate result. -/
theorem State.writeRegCC_result (s : State) (dr : Reg) (v : Word) : RegisterResult dr v s (s.writeRegCC dr v) where
  value := by simp
  cond := by simpa using condFor_condOf v
  registers := fun _ hr => s.readReg_writeRegCC_ne v (by simpa using hr)
  pc := rfl
  memory := fun _ => rfl
  console := ⟨⟨rfl, rfl, rfl⟩, rfl⟩
  mode := ⟨rfl, rfl⟩

/-- A load reads the word its hook leaves and touches nothing beyond the hook's own effect. -/
theorem State.load_result (s : State) (dr : Reg) (a : Word) : LoadResult dr a s (s.load dr a) where
  value := by simp [State.load, State.memRead]
  cond := by simpa [State.load, State.memRead] using condFor_condOf _
  registers := fun r hr => by
    rw [State.load, State.readReg_writeRegCC_ne _ _ (by simpa using hr), State.readReg_memRead]
  pc := by simp [State.load]
  memory := fun _ => rfl
  input := ⟨rfl, rfl, rfl⟩
  output := by simp [State.load]
  mode := by simp [State.load, SameMode]

end Sys2Proof.Machine
end

