-- ==== Sys2Proof/Laws/Trap.lean ====
section
/-! SUPPORT. What the trap routines can do (43_trap.md R121): the scan of PUTS and PUTSP, the wait of GETC and IN, and what
each keeps. -/

namespace Sys2Proof.Machine

/-! ### The scan -/

/-- The number of words a scan reads to know whether it ends. -/
theorem State.scanLimit_eq (s : State) :
    s.scanLimit = 65536 * (s.kbq.length + s.arrivals.flatten.length + s.refill.length + 2) := by
  unfold State.scanLimit
  rfl

/-- A scan reads all of memory at least twice before it is taken to be endless. -/
theorem State.le_scanLimit (s : State) : 131072 ≤ s.scanLimit := by
  rw [s.scanLimit_eq]
  omega

theorem scan_zero (chars : Word → List Byte) (a : Word) (s : State) : scan chars 0 a s = (false, s) := rfl

theorem scan_stop (chars : Word → List Byte) (n : Nat) {a : Word} {s : State} (h : (s.memRead a).1 = 0#16) :
    scan chars (n + 1) a s = (true, (s.memRead a).2) := by simp [scan, h]

theorem scan_go (chars : Word → List Byte) (n : Nat) {a : Word} {s : State} (h : (s.memRead a).1 ≠ 0#16) :
    scan chars (n + 1) a s = scan chars n (a + 1#16) ((s.memRead a).2.emit (chars (s.memRead a).1)) := by simp [scan, h]

/-- The address after `k` and one more words. -/
theorem add_one_add (a : Word) (k : Nat) : a + 1#16 + BitVec.ofNat 16 k = a + BitVec.ofNat 16 (k + 1) := by
  rw [BitVec.ofNat_add, BitVec.add_comm (BitVec.ofNat 16 k), BitVec.add_assoc]

/-- The address as many words on as another lies above it. -/
theorem add_distance (a b : Word) : a + BitVec.ofNat 16 (b - a).toNat = b := by
  rw [BitVec.ofNat_toNat, BitVec.setWidth_eq, BitVec.add_comm, BitVec.sub_add_cancel]

/-- A scan that has not ended goes on where it stands; one that has ended stays ended. -/
theorem scan_add (chars : Word → List Byte) (m n : Nat) (a : Word) (s : State) :
    scan chars (m + n) a s =
      if (scan chars m a s).1 then scan chars m a s else scan chars n (a + BitVec.ofNat 16 m) (scan chars m a s).2 := by
  induction m generalizing a s with
  | zero => simp [scan_zero]
  | succ m ih =>
    rw [Nat.add_right_comm]
    by_cases h : (s.memRead a).1 = 0#16
    · simp [scan_stop _ _ h]
    · rw [scan_go _ _ h, scan_go _ _ h, ih, add_one_add]

/-- A scan has not ended exactly if its parts have not. -/
theorem scan_add_false (chars : Word → List Byte) (m n : Nat) (a : Word) (s : State) :
    (scan chars (m + n) a s).1 = false ↔
      (scan chars m a s).1 = false ∧ (scan chars n (a + BitVec.ofNat 16 m) (scan chars m a s).2).1 = false := by
  rw [scan_add]
  cases h : (scan chars m a s).1 <;> simp [h]

/-- What a scan keeps: the registers, PC, COND, RUN, the phase, all of memory but the two keyboard words, the canonical form,
what was emitted before, and the order of the characters. -/
structure ScanKeeps (s t : State) : Prop where
  regs : t.regs = s.regs
  pc : t.pc = s.pc
  cond : t.cond = s.cond
  run : t.run = s.run
  phase : t.phase = s.phase
  output : ∃ bs : List Byte, t.output = s.output ++ bs.map .out
  wf : s.mem.wf → t.mem.wf
  memory : SameMemoryExcept [Config.kbsr, Config.kbdr] s t
  input : ∃ looks taken, Takes looks taken s t

theorem ScanKeeps.refl (s : State) : ScanKeeps s s :=
  ⟨rfl, rfl, rfl, rfl, rfl, ⟨[], by simp⟩, id, fun _ _ => rfl, 0, [], .refl ⟨rfl, rfl, rfl⟩⟩

theorem ScanKeeps.trans {s t u : State} (h : ScanKeeps s t) (k : ScanKeeps t u) : ScanKeeps s u := by
  obtain ⟨m, x, hx⟩ := h.input
  obtain ⟨n, y, hy⟩ := k.input
  obtain ⟨bs, hb⟩ := h.output
  obtain ⟨cs, hc⟩ := k.output
  exact ⟨k.regs.trans h.regs, k.pc.trans h.pc, k.cond.trans h.cond, k.run.trans h.run, k.phase.trans h.phase,
    ⟨bs ++ cs, by rw [hc, hb]; simp⟩, fun w => k.wf (h.wf w), fun a ha => (k.memory a ha).trans (h.memory a ha),
    _, _, hx.trans hy⟩

theorem ReadKeeps.scanKeeps {s t : State} (h : ReadKeeps s t) : ScanKeeps s t := by
  obtain ⟨k, x, _, hx⟩ := h.input
  exact ⟨h.regs, h.pc, h.cond, h.run, h.phase, ⟨[], by rw [h.output]; simp⟩, h.wf, h.memory, k, x, hx⟩

theorem ScanKeeps.emit (s : State) (bs : List Byte) : ScanKeeps s (s.emit bs) :=
  ⟨rfl, rfl, rfl, rfl, rfl, ⟨bs, rfl⟩, id, fun _ _ => rfl, 0, [], .refl ⟨rfl, rfl, rfl⟩⟩

theorem scan_keeps (chars : Word → List Byte) (n : Nat) (a : Word) (s : State) : ScanKeeps s (scan chars n a s).2 := by
  induction n generalizing a s with
  | zero => exact .refl s
  | succ n ih =>
    by_cases h : (s.memRead a).1 = 0#16
    · rw [scan_stop chars n h]
      exact (s.memRead_keeps a).scanKeeps
    · rw [scan_go chars n h]
      exact ((s.memRead_keeps a).scanKeeps.trans (.emit _ _)).trans (ih _ _)

/-- A scan over words none of which is 0xFE00 looks at no character. -/
theorem scan_input_of_clear (chars : Word → List Byte) (n : Nat) (a : Word) (s : State)
    (h : ∀ k, k < n → a + BitVec.ofNat 16 k ≠ Config.kbsr) :
    SameInput s (scan chars n a s).2 ∧ (scan chars n a s).2.mem = s.mem := by
  induction n generalizing a s with
  | zero => exact ⟨⟨rfl, rfl, rfl⟩, rfl⟩
  | succ n ih =>
    have ha : a ≠ Config.kbsr := by simpa using h 0 (by omega)
    have hm := s.memRead_ne ha
    by_cases hz : (s.memRead a).1 = 0#16
    · rw [scan_stop chars n hz, hm]
      exact ⟨⟨rfl, rfl, rfl⟩, rfl⟩
    · rw [scan_go chars n hz, hm]
      exact ih (a + 1#16) _ fun k hk => add_one_add a k ▸ h (k + 1) (by omega)

/-- With no character pending a scan stops at 0xFE00 at the latest: the status word reads 0 there. -/
theorem scan_stops_of_not_pending (chars : Word → List Byte) (n : Nat) (a : Word) (s : State) (hp : s.pending = [])
    (hn : (Config.kbsr - a).toNat < n) : (scan chars n a s).1 = true := by
  induction n generalizing a s with
  | zero => omega
  | succ n ih =>
    by_cases hz : (s.memRead a).1 = 0#16
    · rw [scan_stop chars n hz]
    rw [scan_go chars n hz]
    by_cases ha : a = Config.kbsr
    · subst ha
      exact absurd (by simp [State.memRead, s.readHook_kbsr, State.kbdHook_none hp]) hz
    · rw [s.memRead_ne ha]
      refine ih (a + 1#16) _ hp ?_
      have h0 : a.toNat ≠ 65024 := fun e => ha (BitVec.eq_of_toNat_eq e)
      have h1 := a.isLt
      simp only [Config.kbsr, BitVec.toNat_sub, BitVec.toNat_add, BitVec.toNat_ofNat] at hn ⊢
      omega

/-! ### A scan that has not ended within its limit never ends

The argument: every round of memory reads 0xFE00 once, where a character must be pending, and 0xFE02 two words later, where
that character must not be 0. Once every known character has been through, all later ones are those of `refill` again. -/

/-- The next `n` looks at the stream each find a character, and none is 0. -/
def Supplied : Nat → List Byte → List (List Byte) → List Byte → Prop
  | 0, _, _, _ => True
  | n + 1, q, arrivals, refill =>
    ∃ c rest, q ++ arrivals.headD refill = c :: rest ∧ c ≠ 0#8 ∧ Supplied n rest arrivals.tail refill

/-- The first `n` characters at hand are not 0. -/
theorem Supplied.ne_zero {n : Nat} {q : List Byte} {arrivals : List (List Byte)} {refill : List Byte}
    (h : Supplied n q arrivals refill) : ∀ c ∈ (q ++ arrivals.headD refill).take n, c ≠ 0#8 := by
  induction n generalizing q arrivals with
  | zero => simp
  | succ n ih =>
    obtain ⟨c, rest, e, hc, hs⟩ := h
    rw [e, List.take_succ_cons]
    intro d hd
    rcases List.mem_cons.1 hd with rfl | hd
    · exact hc
    · refine ih hs d ?_
      rw [List.take_append]
      exact List.mem_append_left _ hd

/-- With nothing more to come, a queue supplies no more looks than it has characters. -/
theorem Supplied.le_length {n : Nat} {q : List Byte} (h : Supplied n q [] []) : n ≤ q.length := by
  induction n generalizing q with
  | zero => omega
  | succ n ih =>
    obtain ⟨c, rest, e, -, hs⟩ := h
    simp only [List.headD_nil, List.append_nil] at e
    rw [e, List.length_cons]
    exact Nat.succ_le_succ (ih hs)

/-- A refill that is not empty supplies every look for ever, if no character at hand is 0. -/
theorem supplied_of_refill {q refill : List Byte} (hr : refill ≠ []) (h : ∀ c ∈ q ++ refill, c ≠ 0#8) (n : Nat) :
    Supplied n q [] refill := by
  induction n generalizing q with
  | zero => trivial
  | succ n ih =>
    rcases e : q ++ refill with _ | ⟨c, rest⟩
    · exact absurd (List.append_eq_nil_iff.1 e).2 hr
    · rw [e] at h
      refine ⟨c, rest, e, h c (by simp), ih fun d hd => ?_⟩
      rcases List.mem_append.1 hd with hd | hd
      · exact h d (by simp [hd])
      · exact h d (e ▸ List.mem_append_right q hd)

/-- As many looks as there are known characters, and one more, decide for all looks. -/
theorem Supplied.forever {q : List Byte} {arrivals : List (List Byte)} {refill : List Byte}
    (h : Supplied (q.length + arrivals.flatten.length + refill.length + 1) q arrivals refill) (n : Nat) :
    Supplied n q arrivals refill := by
  induction arrivals generalizing q n with
  | nil =>
    by_cases hr : refill = []
    · subst hr
      have := h.le_length
      simp at this
    · refine supplied_of_refill hr (fun c hc => h.ne_zero c ?_) n
      rw [List.take_of_length_le (by simp)]
      simpa using hc
  | cons b later ih =>
    rcases n with _ | n
    · trivial
    · obtain ⟨c, rest, e, hc, hs⟩ := h
      refine ⟨c, rest, e, hc, ih ?_ n⟩
      have hl : q.length + b.length = rest.length + 1 := by
        simpa using congrArg List.length e
      have : rest.length + later.flatten.length + refill.length + 1 =
          q.length + (b :: later).flatten.length + refill.length := by
        simp only [List.flatten_cons, List.length_append]
        omega
      rw [this]
      exact hs

/-- A state's own next `n` looks. -/
abbrev State.Supplied (s : State) (n : Nat) : Prop := Machine.Supplied n s.kbq s.arrivals s.refill

/-- A read of 0xFE00 with a character at hand. -/
theorem State.memRead_kbsr_ready {s : State} {c : Byte} {rest : List Byte} (h : s.pending = c :: rest) :
    (s.memRead Config.kbsr).1 = 0x8000#16 ∧ (s.memRead Config.kbsr).2.mem.read Config.kbdr = widen c ∧
      LookedAt rest s (s.memRead Config.kbsr).2 := by
  have hne : Config.kbsr ≠ Config.kbdr := by decide
  simp [State.memRead, s.readHook_kbsr, State.kbdHook_ready h, Memory.read_write_ne _ _ hne, LookedAt]

theorem widen_ne_zero {c : Byte} (h : c ≠ 0#8) : widen c ≠ 0#16 := fun e =>
  h (BitVec.eq_of_toNat_eq (by rw [← widen_toNat, e]; rfl))

/-- A scan that stands at 0xFE00 and reads `65536 n + 3` words more finds a character, not 0, at each of `n + 1` looks. -/
theorem supplied_of_scan (chars : Word → List Byte) (n : Nat) (s : State)
    (h : (scan chars (65536 * n + 3) Config.kbsr s).1 = false) : s.Supplied (n + 1) := by
  have first : ∀ (m : Nat) (s : State), (scan chars (m + 3) Config.kbsr s).1 = false →
      ∃ c rest, s.pending = c :: rest ∧ c ≠ 0#8 := by
    intro m s h
    rcases hp : s.pending with _ | ⟨c, rest⟩
    · rw [scan_stop] at h
      · cases h
      · simp [State.memRead, s.readHook_kbsr, State.kbdHook_none hp]
    · refine ⟨c, rest, rfl, ?_⟩
      rintro rfl
      obtain ⟨h1, h2, -⟩ := s.memRead_kbsr_ready hp
      rw [scan_go chars (m + 2) (by rw [h1]; decide)] at h
      generalize hu : (s.memRead Config.kbsr).2.emit (chars (s.memRead Config.kbsr).1) = u at h
      have hd : u.mem.read Config.kbdr = 0#16 := by rw [← hu]; exact h2
      by_cases hz : (u.memRead (Config.kbsr + 1#16)).1 = 0#16
      · rw [scan_stop _ _ hz] at h
        cases h
      · rw [scan_go _ _ hz, u.memRead_ne (by decide), scan_stop] at h
        · cases h
        · rw [State.memRead_ne _ (by decide)]
          exact hd
  induction n generalizing s with
  | zero =>
    obtain ⟨c, rest, hp, hc⟩ := first 0 s h
    exact ⟨c, rest, hp, hc, trivial⟩
  | succ n ih =>
    obtain ⟨c, rest, hp, hc⟩ := first _ s h
    refine ⟨c, rest, hp, hc, ?_⟩
    obtain ⟨h1, -, h3⟩ := s.memRead_kbsr_ready hp
    have e : 65536 * (n + 1) + 3 = 1 + (65535 + (65536 * n + 3)) := by omega
    rw [e, scan_add_false, scan_go chars 0 (by rw [h1]; decide), scan_zero, scan_add_false] at h
    generalize hu : (s.memRead Config.kbsr).2.emit (chars (s.memRead Config.kbsr).1) = u at h
    have hi : SameInput u (scan chars 65535 (Config.kbsr + BitVec.ofNat 16 1) u).2 := by
      refine (scan_input_of_clear chars 65535 _ u fun k hk e => ?_).1
      have := congrArg BitVec.toNat e
      simp only [Config.kbsr, BitVec.toNat_add, BitVec.toNat_ofNat] at this
      omega
    have := ih _ h.2.2
    rw [State.Supplied, hi.1, hi.2.1, hi.2.2, ← hu] at this
    simpa [h3.1, h3.2.1, h3.2.2] using this

/-- With every look supplied and no other word 0, a scan goes on for as long as one likes. -/
theorem scan_goes_on (chars : Word → List Byte) (n : Nat) (a : Word) (s : State)
    (hm : ∀ b, b ≠ Config.kbsr → b ≠ Config.kbdr → s.mem.read b ≠ 0#16)
    (hd : a = Config.kbsr ∨ s.mem.read Config.kbdr ≠ 0#16) (hs : ∀ k, s.Supplied k) : (scan chars n a s).1 = false := by
  induction n generalizing a s with
  | zero => rfl
  | succ n ih =>
    by_cases ha : a = Config.kbsr
    · subst ha
      obtain ⟨c, rest, hp, hc, -⟩ := hs 1
      obtain ⟨h1, h2, h3⟩ := s.memRead_kbsr_ready hp
      rw [scan_go _ _ (by rw [h1]; decide)]
      refine ih _ _ (fun b hb hb' => ?_) (.inr ?_) fun k => ?_
      · simp only [State.emit_mem]
        rw [(s.memRead_keeps Config.kbsr).memory b (by simp [hb, hb'])]
        exact hm b hb hb'
      · simp only [State.emit_mem, h2]
        exact widen_ne_zero hc
      · obtain ⟨c', rest', e, -, hk⟩ := hs (k + 1)
        have : rest' = rest := by
          rw [show s.kbq ++ s.arrivals.headD s.refill = c :: rest from hp] at e
          cases e
          rfl
        subst this
        simpa [State.Supplied, h3.1, h3.2.1, h3.2.2] using hk
    · have hd' := hd.resolve_left ha
      have hz : (s.memRead a).1 ≠ 0#16 := by
        rw [s.memRead_ne ha]
        by_cases hb : a = Config.kbdr
        · rw [hb]; exact hd'
        · exact hm a ha hb
      rw [scan_go _ _ hz, s.memRead_ne ha]
      exact ih _ _ hm (.inr hd') hs

/-- A scan that has not ended after all of memory has met no zero word outside the two keyboard words. -/
theorem words_of_scan (chars : Word → List Byte) (n : Nat) (a : Word) (s : State) (hn : 65536 ≤ n)
    (h : (scan chars n a s).1 = false) (b : Word) (hb : b ≠ Config.kbsr) (hb' : b ≠ Config.kbdr) : s.mem.read b ≠ 0#16 := by
  intro hz
  have hk := (b - a).isLt
  obtain ⟨m, rfl⟩ := Nat.exists_eq_add_of_le (show (b - a).toNat + 1 ≤ n by omega)
  rw [Nat.add_assoc, scan_add_false, add_distance, Nat.add_comm 1, scan_stop] at h
  · cases h.2
  · rw [State.memRead_ne _ hb, (scan_keeps chars _ a s).memory b (by simp [hb, hb'])]
    exact hz

/-- The words before 0xFE00 are scanned with no look at the input. -/
theorem scan_to_kbsr (chars : Word → List Byte) (a : Word) (s : State) :
    SameInput s (scan chars (Config.kbsr - a).toNat a s).2 ∧ (scan chars (Config.kbsr - a).toNat a s).2.mem = s.mem := by
  refine scan_input_of_clear chars _ a s fun k hk e => ?_
  have hd := (Config.kbsr - a).isLt
  have : Config.kbsr - a = BitVec.ofNat 16 k := by rw [← e, BitVec.add_comm, BitVec.add_sub_cancel]
  rw [this, BitVec.toNat_ofNat, Nat.mod_eq_of_lt (by omega)] at hk
  omega

/-- A scan that has not ended within `scanLimit` words never ends (70_reset_and_hazards.md R178 (d); log 5). -/
theorem scan_endless (chars : Word → List Byte) (a : Word) (s : State) (h : (scan chars s.scanLimit a s).1 = false) (n : Nat) :
    (scan chars n a s).1 = false := by
  have hlim := s.scanLimit_eq
  have hm := words_of_scan chars _ a s (by have := s.le_scanLimit; omega) h
  have hd := (Config.kbsr - a).isLt
  have he := add_distance a Config.kbsr
  have clear := scan_to_kbsr chars a s
  generalize hN : s.kbq.length + s.arrivals.flatten.length + s.refill.length = N at hlim
  obtain ⟨m, hm'⟩ := Nat.exists_eq_add_of_le (show (Config.kbsr - a).toNat + (65536 * N + 3) ≤ s.scanLimit by omega)
  rw [hm', Nat.add_assoc, scan_add_false, he, scan_add_false] at h
  obtain ⟨h0, h1, -⟩ := h
  generalize hu : (scan chars (Config.kbsr - a).toNat a s).2 = u at *
  have hs := supplied_of_scan chars N u h1
  rw [State.Supplied, clear.1.1, clear.1.2.1, clear.1.2.2] at hs
  have hs' : ∀ k, u.Supplied k := fun k => by
    rw [State.Supplied, clear.1.1, clear.1.2.1, clear.1.2.2]
    exact Supplied.forever (hN.symm ▸ hs) k
  have tail := fun k => scan_goes_on chars k Config.kbsr u (clear.2 ▸ hm) (.inl rfl) hs'
  rcases Nat.le_total n (Config.kbsr - a).toNat with hle | hle
  · obtain ⟨k, hk⟩ := Nat.exists_eq_add_of_le hle
    rw [hk, scan_add_false] at h0
    exact h0.1
  · obtain ⟨k, rfl⟩ := Nat.exists_eq_add_of_le hle
    rw [scan_add_false, he, hu]
    exact ⟨h0, tail k⟩

/-! ### A scan is the loop of R125 and R127 -/

/-- What has been emitted so far changes nothing that a memory read does. -/
theorem State.memRead_withOutput (s : State) (a : Word) (out : List ConsoleEvent) :
    ({ s with output := out } : State).memRead a = ((s.memRead a).1, { (s.memRead a).2 with output := out }) := by
  by_cases h : a = Config.kbsr
  · subst h
    rcases hp : s.pending with _ | ⟨c, rest⟩
    · have hp' : ({ s with output := out } : State).pending = [] := hp
      simp only [State.memRead, State.readHook_kbsr, State.kbdHook_none hp, State.kbdHook_none hp']
      rfl
    · have hp' : ({ s with output := out } : State).pending = c :: rest := hp
      simp only [State.memRead, State.readHook_kbsr, State.kbdHook_ready hp, State.kbdHook_ready hp']
      rfl
  · rw [State.memRead_ne _ h, State.memRead_ne _ h]

/-- What the loop keeps is what a read keeps, read by read. -/
theorem PrintLoop.keeps {chars : Word → List Byte} {a : Word} {s t : State} {bs : List Byte} (h : PrintLoop chars a s bs t) :
    ScanKeeps s t ∧ t.output = s.output := by
  induction h with
  | @stop a s _ => exact ⟨(s.memRead_keeps a).scanKeeps, s.memRead_output a⟩
  | @word a s _ _ _ _ ih => exact ⟨(s.memRead_keeps a).scanKeeps.trans ih.1, ih.2.trans (s.memRead_output a)⟩

/-- Where the loop ends, a scan of enough words ends, with the loop's characters and state. -/
theorem scan_ends_of_printLoop {chars : Word → List Byte} {a : Word} {s t : State} {bs : List Byte}
    (h : PrintLoop chars a s bs t) (out : List ConsoleEvent) :
    ∃ n, scan chars n a { s with output := out } = (true, { t with output := out ++ bs.map .out }) := by
  induction h generalizing out with
  | @stop a s hz =>
    have hr := s.memRead_withOutput a out
    refine ⟨1, ?_⟩
    rw [scan_stop chars 0 (by rw [hr]; exact hz), hr]
    simp
  | @word a s t bs hz _ ih =>
    have hr := s.memRead_withOutput a out
    obtain ⟨n, hn⟩ := ih (out ++ (chars (s.memRead a).1).map .out)
    refine ⟨n + 1, ?_⟩
    rw [scan_go chars n (by rw [hr]; exact hz), hr]
    simpa [State.emit, List.append_assoc] using hn

/-- Where a scan ends, so does the loop. -/
theorem printLoop_of_scan {chars : Word → List Byte} {n : Nat} {a : Word} {s : State} (out : List ConsoleEvent)
    (h : (scan chars n a { s with output := out }).1 = true) : ∃ bs t, PrintLoop chars a s bs t := by
  induction n generalizing a s out with
  | zero => cases h
  | succ n ih =>
    by_cases hz : (s.memRead a).1 = 0#16
    · exact ⟨_, _, .stop hz⟩
    · have hr := s.memRead_withOutput a out
      rw [scan_go chars n (by rw [hr]; exact hz), hr] at h
      obtain ⟨bs, t, k⟩ := ih (s := (s.memRead a).2) _ h
      exact ⟨_, _, .word hz k⟩

/-- More words change nothing for a scan that has ended. -/
theorem scan_of_le {chars : Word → List Byte} {n m : Nat} {a : Word} {s : State} (h : (scan chars n a s).1 = true)
    (hnm : n ≤ m) : scan chars m a s = scan chars n a s := by
  obtain ⟨k, rfl⟩ := Nat.exists_eq_add_of_le hnm
  rw [scan_add, if_pos h]

/-- Where the loop ends, the scan of a step ends, with the loop's characters and state (R125, R127, R121). -/
theorem scan_of_printLoop {chars : Word → List Byte} {a : Word} {s t : State} {bs : List Byte}
    (h : PrintLoop chars a s bs t) :
    scan chars s.scanLimit a s = (true, { t with output := s.output ++ bs.map .out }) := by
  obtain ⟨n, hn⟩ := scan_ends_of_printLoop h s.output
  change scan chars n a s = _ at hn
  have ht : (scan chars n a s).1 = true := by rw [hn]
  cases hl : (scan chars s.scanLimit a s).1 with
  | false =>
    rw [scan_endless chars a s hl n] at ht
    cases ht
  | true =>
    rw [← hn]
    rcases Nat.le_total n s.scanLimit with hle | hle
    · exact scan_of_le ht hle
    · exact (scan_of_le hl hle).symm

/-- The scan of a step ends where the loop ends and nowhere else. -/
theorem scan_ends_iff (chars : Word → List Byte) (a : Word) (s : State) :
    (scan chars s.scanLimit a s).1 = true ↔ ∃ bs t, PrintLoop chars a s bs t :=
  ⟨printLoop_of_scan s.output, fun ⟨_, _, h⟩ => by rw [scan_of_printLoop h]⟩

/-- With no zero word in memory and no end of typing the loop never ends (70_reset_and_hazards.md R178 (d)). -/
theorem State.NoZeroWord.endless {s : State} (h : s.NoZeroWord) (chars : Word → List Byte) (a : Word) :
    ¬ ∃ bs t, PrintLoop chars a s bs t := by
  rw [← scan_ends_iff, Bool.not_eq_true]
  refine scan_goes_on chars _ a s (fun b hb _ => h.words b hb) (.inr (h.words _ (by decide))) fun k => ?_
  rw [State.Supplied, h.noArrivals]
  exact supplied_of_refill h.refill h.characters k

/-- A loop that ends is printed whole, and then comes the flush (R125, R127). -/
theorem State.print_of_printLoop {chars : Word → List Byte} {a : Word} {s t : State} {bs : List Byte}
    (h : PrintLoop chars a s bs t) (more : Phase) :
    s.print chars more a = { t with output := s.output ++ bs.map .out ++ [.flush], phase := .fetch } := by
  simp only [State.print, scan_of_printLoop h, if_true]
  rfl

/-- A loop that never ends leaves the scan where it was, in the phase `more` (R178 (d)). -/
theorem State.print_of_endless {chars : Word → List Byte} {a : Word} {s : State}
    (h : ¬ ∃ bs t, PrintLoop chars a s bs t) (more : Phase) :
    s.print chars more a = { (scan chars s.scanLimit a s).2 with phase := more } := by
  have : (scan chars s.scanLimit a s).1 = false := by
    rw [← scan_ends_iff] at h
    simpa using h
  simp [State.print, this]

/-- A string clear of 0xFE00 is scanned to its zero word: its characters come out in order and nothing else changes
(R125, R127). -/
theorem scan_string (chars : Word → List Byte) (n : Nat) (a : Word) (s : State) (ws : List Word)
    (hk : ∀ k, k ≤ ws.length → a + BitVec.ofNat 16 k ≠ Config.kbsr)
    (hw : ∀ k (h : k < ws.length), s.mem.read (a + BitVec.ofNat 16 k) = ws[k] ∧ ws[k] ≠ 0#16)
    (hz : s.mem.read (a + BitVec.ofNat 16 ws.length) = 0#16) (hn : ws.length < n) :
    scan chars n a s = (true, s.emit (ws.flatMap chars)) := by
  induction ws generalizing n a s with
  | nil =>
    obtain ⟨n, rfl⟩ := Nat.exists_eq_add_of_lt hn
    have hm := s.memRead_ne (a := a) (by simpa using hk 0 (by simp))
    have h0 : (s.memRead a).1 = 0#16 := by rw [hm]; simpa using hz
    rw [scan_stop _ _ h0, hm]
    simp [State.emit]
  | cons w ws ih =>
    obtain ⟨n, rfl⟩ := Nat.exists_eq_add_of_lt hn
    have hm := s.memRead_ne (a := a) (by simpa using hk 0 (by simp))
    have h0 : s.mem.read a = w ∧ w ≠ 0#16 := by
      have := hw 0 (by simp)
      rwa [BitVec.add_zero] at this
    have hne : (s.memRead a).1 ≠ 0#16 := by rw [hm, h0.1]; exact h0.2
    rw [scan_go _ _ hne, hm, ih _ (a + 1#16) (s.emit (chars (s.mem.read a))) (fun k h => add_one_add a k ▸ hk (k + 1) (by simpa using h))
      (fun k h => add_one_add a k ▸ hw (k + 1) (by simpa using h))
      ((congrArg s.mem.read (add_one_add a ws.length)).trans hz) (by simp; omega)]
    simp [State.emit, h0.1]

/-- Printing ends the instruction at a zero word and otherwise goes on in the phase `more`. -/
theorem State.print_cases (s : State) (chars : Word → List Byte) (more : Phase) (a : Word) :
    ((scan chars s.scanLimit a s).1 = true ∧ s.print chars more a = { (scan chars s.scanLimit a s).2.flush with phase := .fetch }) ∨
      ((scan chars s.scanLimit a s).1 = false ∧ s.print chars more a = { (scan chars s.scanLimit a s).2 with phase := more }) := by
  unfold State.print
  cases h : (scan chars s.scanLimit a s).1 <;> simp [h]

/-! ### The wait -/

/-- GETC takes the pending character or waits (R122, R123). -/
theorem getcRoutine_cases (s : State) :
    (∃ c t, s.poll = (some c, t) ∧ getcRoutine s = t.takeChar c) ∨
      (∃ t, s.poll = (none, t) ∧ getcRoutine s = { t with phase := .waitGetc }) := by
  unfold getcRoutine
  split
  · rename_i c t h
    exact .inl ⟨c, t, h, rfl⟩
  · rename_i t h
    exact .inr ⟨t, h, rfl⟩

/-- IN takes and echoes the pending character or waits (R122, R126). -/
theorem inRoutine_cases (s : State) :
    (∃ c t, s.poll = (some c, t) ∧ inRoutine s = (t.emit [c]).flush.takeChar c) ∨
      (∃ t, s.poll = (none, t) ∧ inRoutine s = { t with phase := .waitIn }) := by
  unfold inRoutine
  split
  · rename_i c t h
    exact .inl ⟨c, t, h, rfl⟩
  · rename_i t h
    exact .inr ⟨t, h, rfl⟩

/-! ### The dispatch -/

@[simp] theorem trapDispatch_getc (s : State) : trapDispatch Config.vectGetc s = getcRoutine s := rfl
@[simp] theorem trapDispatch_out (s : State) : trapDispatch Config.vectOut s = outRoutine s := rfl
@[simp] theorem trapDispatch_puts (s : State) : trapDispatch Config.vectPuts s = putsRoutine (s.readReg 0) s := rfl
@[simp] theorem trapDispatch_in (s : State) : trapDispatch Config.vectIn s = inPromptRoutine s := rfl
@[simp] theorem trapDispatch_putsp (s : State) : trapDispatch Config.vectPutsp s = putspRoutine (s.readReg 0) s := rfl
@[simp] theorem trapDispatch_halt (s : State) : trapDispatch Config.vectHalt s = haltRoutine s := rfl

/-- An unrecognised vector does nothing after trap entry (R129). -/
theorem trapDispatch_unrecognised {v : Byte} (h : recognisedVect v = false) (s : State) : trapDispatch v s = s := by
  simp only [recognisedVect, Bool.or_eq_false_iff, beq_eq_false_iff_ne] at h
  simp [trapDispatch, h]

end Sys2Proof.Machine
end

