-- ==== Sys2Proof/Tests/Slice0.lean ====
section
/-! SUPPORT. The model's own tests: the ill-formed term, the decoding of words written out from the spec's encodings
(30_encoding.md R64, R66), one step of the spec's vectors (95_test_vectors.md), and a witness for the hypotheses of each
statement. Every expected value comes from the spec. -/

namespace Sys2Proof.Tests

open Sys2Proof.Machine

/-! ### Well-formedness -/

/-- The one check: a vector of the six is no unrecognised vector (R129). -/
theorem test_recognised_vector_is_ill_formed : (Instr.trapUnrecognised 0x25#8).WellFormed = false := by decide

theorem test_vectors_around_the_six_are_well_formed :
    (Instr.trapUnrecognised 0x1F#8).WellFormed = true ∧ (Instr.trapUnrecognised 0x26#8).WellFormed = true := by decide

/-! ### Decoding, word by word: opcode, fields and ignored bits as R64 lays them out -/

theorem test_decode_br : decode 0b0000001111111101#16 = .br false false true 0x1FD#9 ∧
    decode 0b0000101000000001#16 = .br true false true 1#9 := by decide
theorem test_decode_nop : decode 0b0000000000000101#16 = .nop 5#9 := by decide
theorem test_decode_addReg : decode 0b0001000001000010#16 = .addReg 0 1 2 ∧
    decode 0b0001000001011010#16 = .addReg 0 1 2 := by decide
theorem test_decode_addImm : decode 0b0001000001111101#16 = .addImm 0 1 0b11101#5 := by decide
theorem test_decode_ld : decode 0b0010010000001110#16 = .ld 2 14#9 := by decide
theorem test_decode_st : decode 0b0011101000001101#16 = .st 5 13#9 := by decide
theorem test_decode_jsr : decode 0b0100110000000000#16 = .jsr 0x400#11 := by decide
theorem test_decode_jsrr : decode 0b0100000010000000#16 = .jsrr 2 ∧ decode 0b0100011010111111#16 = .jsrr 2 := by decide
theorem test_decode_andReg : decode 0b0101000001000010#16 = .andReg 0 1 2 := by decide
theorem test_decode_andImm : decode 0b0101011011101111#16 = .andImm 3 3 15#5 := by decide
theorem test_decode_ldr : decode 0b0110011001000001#16 = .ldr 3 1 1#6 := by decide
theorem test_decode_str : decode 0b0111011001000100#16 = .str 3 1 4#6 := by decide
theorem test_decode_rti : decode 0b1000000000000000#16 = .rti ∧ decode 0b1000111111111111#16 = .rti := by decide
theorem test_decode_not : decode 0b1001101010111111#16 = .notReg 5 2 ∧ decode 0b1001101010000000#16 = .notReg 5 2 := by decide
theorem test_decode_ldi : decode 0b1010001000000001#16 = .ldi 1 1#9 := by decide
theorem test_decode_sti : decode 0b1011010000001101#16 = .sti 2 13#9 := by decide
theorem test_decode_jmp : decode 0b1100000110000000#16 = .jmp 6 ∧ decode 0b1100111110111111#16 = .jmp 6 := by decide
theorem test_decode_ret : decode 0b1100000111000000#16 = .ret := by decide
theorem test_decode_res : decode 0b1101101010111100#16 = .res := by decide
theorem test_decode_lea : decode 0b1110001000001111#16 = .lea 1 15#9 := by decide
theorem test_decode_getc : decode 0b1111000000100000#16 = .getc := by decide
theorem test_decode_out : decode 0b1111000000100001#16 = .out ∧ decode 0b1111111100100001#16 = .out := by decide
theorem test_decode_puts : decode 0b1111000000100010#16 = .puts := by decide
theorem test_decode_in : decode 0b1111000000100011#16 = .inChar := by decide
theorem test_decode_putsp : decode 0b1111000000100100#16 = .putsp := by decide
theorem test_decode_halt : decode 0b1111000000100101#16 = .halt := by decide
/-- A vector outside the six is TRAP's own word, `trapUnrecognised` being its other name (log 8). -/
theorem test_decode_trap : decode 0b1111000011111111#16 = .trap 0xFF#8 ∧ decode 0b1111000000011111#16 = .trap 0x1F#8 ∧
    decode 0b1111000000100110#16 = .trap 0x26#8 := by decide

/-- The aliases of R74 encode to the words R74 gives, and NOT to its word of R73. -/
theorem test_encode_aliases : encode .ret = 0xC1C0 ∧ encode .getc = 0xF020 ∧ encode .halt = 0xF025 ∧ encode (.nop 0) = 0x0000 ∧
    encode (.notReg 5 2) = 0x9ABF ∧ encode (.trapUnrecognised 0xFF#8) = 0xF0FF := by decide

/-- No two of the 19 instruction rows overlap (INDEX.md). -/
theorem test_rows_are_disjoint :
    instructionRows.Pairwise (fun r q => (r.pattern ^^^ q.pattern) &&& (r.mask &&& q.mask) ≠ 0#16) := by decide

/-! ### One step of the spec's vectors (95_test_vectors.md 2) -/

/-- The state at `pc` with COND `cond`, some registers and some words of memory set; everything else as after reset. -/
def start (pc : Word) (cond : BitVec 3) (rs : List (Reg × Word)) (ms : List (Word × Word)) : State :=
  ms.foldl (fun s m => s.loadWord m.1 m.2) (rs.foldl (fun s r => s.writeReg r.1 r.2) { State.reset with pc := pc, cond := cond })

/-- The step answers a next state that passes the check. -/
def stepGives (s : State) (check : State → Bool) : Bool :=
  match step s with
  | .next t => check t
  | .fault _ => false
  | .refused _ => false

/-- Vector A2, the document's own example S5. -/
theorem test_addImm_minus_three : stepGives (start 0x3000 2 [(1, 5)] [(0x3000, 0x107D)])
    (fun t => t.readReg 0 == 2 && t.cond == 1 && t.pc == 0x3001) = true := by decide
/-- Vector A3: the destination is both sources. -/
theorem test_addReg_doubles_itself : stepGives (start 0x3000 2 [(1, 0x4000)] [(0x3000, 0x1241)])
    (fun t => t.readReg 1 == 0x8000 && t.cond == 4) = true := by decide
/-- Vector A4: the wrap. -/
theorem test_addImm_wraps : stepGives (start 0x3000 4 [(2, 0xFFFF)] [(0x3000, 0x14A1)])
    (fun t => t.readReg 2 == 0 && t.cond == 2) = true := by decide
/-- Vector AN1. -/
theorem test_andReg : stepGives (start 0x3000 2 [(1, 0xF0F0), (2, 0xFF00)] [(0x3000, 0x5042)])
    (fun t => t.readReg 0 == 0xF000 && t.cond == 4) = true := by decide
/-- Vector AN5: the mask is sign-extended. -/
theorem test_andImm_negative_mask : stepGives (start 0x3000 2 [(2, 0xABCD)] [(0x3000, 0x52B0)])
    (fun t => t.readReg 1 == 0xABC0 && t.cond == 4) = true := by decide
/-- Vector T4. -/
theorem test_not : stepGives (start 0x3000 4 [(0, 0x8000)] [(0x3000, 0x903F)])
    (fun t => t.readReg 0 == 0x7FFF && t.cond == 1) = true := by decide
/-- Vector B1: taken backward. -/
theorem test_br_taken : stepGives (start 0x3005 1 [] [(0x3005, 0x03FD)]) (fun t => t.pc == 0x3003 && t.cond == 1) = true := by
  decide
/-- Vector B5: the PC wraps at the fetch. -/
theorem test_br_at_the_top_of_memory : stepGives (start 0xFFFF 2 [] [(0xFFFF, 0x04FF)]) (fun t => t.pc == 0x00FF) = true := by
  decide
/-- Vector B3: no condition bit. -/
theorem test_nop : stepGives (start 0x3000 4 [] [(0x3000, 0x0005)]) (fun t => t.pc == 0x3001 && t.cond == 4) = true := by decide
/-- Vector J2: the ignored bits set. -/
theorem test_jmp : stepGives (start 0x3000 2 [(6, 0x3002)] [(0x3000, 0xCFBF)]) (fun t => t.pc == 0x3002) = true := by decide
/-- Vector J3. -/
theorem test_ret : stepGives (start 0x3000 2 [(7, 0x1234)] [(0x3000, 0xC1C0)])
    (fun t => t.pc == 0x1234 && t.readReg 7 == 0x1234) = true := by decide
/-- Vector CS2: COND stays. -/
theorem test_jsr : stepGives (start 0x3000 2 [] [(0x3000, 0x4C00)])
    (fun t => t.readReg 7 == 0x3001 && t.pc == 0x2C01 && t.cond == 2) = true := by decide
/-- Vector CS6: JSRR R7 continues at the return address (D15). -/
theorem test_jsrr_seven : stepGives (start 0x3000 2 [(7, 0x5000)] [(0x3000, 0x41C0)])
    (fun t => t.readReg 7 == 0x3001 && t.pc == 0x3001) = true := by decide
/-- Vector CS5. -/
theorem test_jsrr : stepGives (start 0x3000 2 [(2, 0x4000)] [(0x3000, 0x4080)])
    (fun t => t.readReg 7 == 0x3001 && t.pc == 0x4000) = true := by decide
/-- Vector L2: LD of its own word. -/
theorem test_ld_its_own_word : stepGives (start 0x3000 2 [] [(0x3000, 0x21FF)])
    (fun t => t.readReg 0 == 0x21FF && t.cond == 1) = true := by decide
/-- Vector L3, the document's own example S6. -/
theorem test_ldi : stepGives (start 0x3000 2 [] [(0x3000, 0xA201), (0x3002, 0x4000), (0x4000, 0x1234)])
    (fun t => t.readReg 1 == 0x1234 && t.cond == 1) = true := by decide
/-- Vector L5: DR is the base, and the address wraps down. -/
theorem test_ldr_wraps : stepGives (start 0x3000 2 [] [(0x3000, 0x627F), (0xFFFF, 0x0007)])
    (fun t => t.readReg 1 == 7 && t.cond == 1) = true := by decide
/-- Vector L8: LEA sets COND. -/
theorem test_lea_sets_cond : stepGives (start 0 1 [] [(0, 0xE1FF)]) (fun t => t.readReg 0 == 0 && t.cond == 2 && t.pc == 1) = true := by
  decide
/-- Vector W6: ST over itself. -/
theorem test_st_over_itself : stepGives (start 0x3000 2 [(0, 0xABCD)] [(0x3000, 0x31FF)])
    (fun t => t.mem.read 0x3000 == 0xABCD && t.cond == 2) = true := by decide
/-- Vector W3. -/
theorem test_sti : stepGives (start 0x3007 2 [(2, 0x00FF)] [(0x3007, 0xB40D), (0x3015, 0x4000)])
    (fun t => t.mem.read 0x4000 == 0x00FF && t.mem.read 0x3015 == 0x4000) = true := by decide
/-- Vector W5: SR is the base, the address wraps, and the word becomes 0 again (unlisted). -/
theorem test_str_wraps : stepGives (start 0x3000 2 [] [(0x3000, 0x703F), (0xFFFF, 0x1111)])
    (fun t => t.mem == [(0x3000, 0x703F#16)]) = true := by decide
/-- Vector X1. -/
theorem test_rti : stepGives (start 0x3000 4 [] [(0x3000, 0x8000)])
    (fun t => t == { start 0x3000 4 [] [(0x3000, 0x8000)] with pc := 0x3001 }) = true := by decide
/-- Vector X4: a reserved word at the top of memory. -/
theorem test_res : stepGives (start 0xFFFF 2 [] [(0xFFFF, 0xD000)]) (fun t => t.pc == 0 && t.cond == 2) = true := by decide
/-- Vector TU1. -/
theorem test_trap_unrecognised : stepGives (start 0x3002 4 [] [(0x3002, 0xF0FF)])
    (fun t => t.readReg 7 == 0x3003 && t.pc == 0x3003 && t.cond == 4 && t.output == []) = true := by decide

/-- Vector K2: a ready poll through LDI. -/
theorem test_ready_poll : stepGives { start 0x3000 1 [] [(0x3000, 0xA001), (0x3002, 0xFE00), (0xFE00, 0x1234)] with kbq := [0x61] }
    (fun t => t.readReg 0 == 0x8000 && t.cond == 4 && t.mem.read 0xFE00 == 0x8000 && t.mem.read 0xFE02 == 0x0061 && t.kbq == []) = true := by
  decide
/-- Vector K1: a poll that finds nothing. -/
theorem test_idle_poll : stepGives (start 0x3000 1 [] [(0x3000, 0xA001), (0x3002, 0xFE00), (0xFE00, 0x1234)])
    (fun t => t.readReg 0 == 0 && t.cond == 2 && t.mem.read 0xFE00 == 0 && t.mem.read 0xFE02 == 0) = true := by decide
/-- Vector K3: a read of 0xFE02 takes nothing. -/
theorem test_data_read_takes_nothing :
    stepGives { start 0x3000 2 [] [(0x3000, 0xA001), (0x3002, 0xFE02), (0xFE02, 0x0077)] with kbq := [0x61] }
      (fun t => t.readReg 0 == 0x0077 && t.kbq == [0x61] && t.mem.read 0xFE00 == 0) = true := by decide
/-- Vector K7: a fetch from 0xFE00. -/
theorem test_fetch_from_kbsr : stepGives { start 0xFE00 2 [] [] with kbq := [0x61] }
    (fun t => t.pc == 0xFE01 && t.mem.read 0xFE00 == 0x8000 && t.mem.read 0xFE02 == 0x0061 && t.kbq == []) = true := by decide

/-- Vector GC3: the character is zero-extended (D10). -/
theorem test_getc : stepGives { start 0x3000 2 [] [(0x3000, 0xF020)] with kbq := [0xE9] }
    (fun t => t.readReg 0 == 0x00E9 && t.cond == 1 && t.readReg 7 == 0x3001 && t.output == [] && t.kbq == []) = true := by decide
/-- Vector GC4: with no character GETC waits, R7 written and R0 not (R122). -/
theorem test_getc_waits : stepGives (start 0x3000 1 [(0, 0x9999)] [(0x3000, 0xF020)])
    (fun t => t.phase == .waitGetc && t.readReg 0 == 0x9999 && t.readReg 7 == 0x3001 && t.cond == 1) = true := by decide
/-- A character that arrives ends the wait (R122). -/
theorem test_getc_wait_ends : stepGives { start 0x3001 1 [] [] with phase := .waitGetc, arrivals := [[0x00]] }
    (fun t => t.phase == .fetch && t.readReg 0 == 0 && t.cond == 2 && t.pc == 0x3001) = true := by decide
/-- Vector O1. -/
theorem test_out : stepGives (start 0x3003 4 [(0, 0x1241)] [(0x3003, 0xF021)])
    (fun t => t.output == [.out 0x41, .flush] && t.readReg 7 == 0x3004 && t.readReg 0 == 0x1241 && t.cond == 4) = true := by decide
/-- Vector PS3: high bytes are ignored, and only a whole zero word stops. -/
theorem test_puts : stepGives (start 0x3000 2 [(0, 0x3006)] [(0x3000, 0xF022), (0x3006, 0x0141), (0x3007, 0x0100), (0x3008, 0x0042)])
    (fun t => t.output == [.out 0x41, .out 0x00, .out 0x42, .flush] && t.readReg 7 == 0x3001) = true := by decide +kernel
/-- Vector PS4: the scan wraps (D14). -/
theorem test_puts_wraps : stepGives (start 0x3000 2 [(0, 0xFFFF)] [(0x3000, 0xF022), (0xFFFF, 0x0041), (0x0000, 0x0042)])
    (fun t => t.output == [.out 0x41, .out 0x42, .flush] && t.phase == .fetch) = true := by decide +kernel
/-- R44 with R125: a string across 0xFE00 reads 0x8000 there, then 0xFE01, then the character just taken at 0xFE02. -/
theorem test_puts_across_kbsr :
    stepGives { start 0x3000 2 [(0, 0xFE00)] [(0x3000, 0xF022), (0xFE01, 0x0042)] with kbq := [0x61, 0x62] }
      (fun t => t.output == [.out 0x00, .out 0x42, .out 0x61, .flush] && t.kbq == [0x62] && t.phase == .fetch) = true := by
  decide +kernel
/-- Vector I1, the part that no prompt changes: R0, COND, R7 and the input. -/
theorem test_in : stepGives { start 0x3000 4 [] [(0x3000, 0xF023)] with kbq := [0x7A] }
    (fun t => t.readReg 0 == 0x007A && t.cond == 1 && t.readReg 7 == 0x3001 && t.kbq == []) = true := by decide
/-- Vectors Q1 and Q2: low byte first, a zero low byte too. -/
theorem test_putsp : stepGives (start 0x3000 2 [(0, 0x4000)] [(0x3000, 0xF024), (0x4000, 0x6548), (0x4001, 0x006C)])
    (fun t => t.output == [.out 0x48, .out 0x65, .out 0x6C, .flush]) = true := by decide +kernel
theorem test_putsp_zero_low_byte : stepGives (start 0x3000 2 [(0, 0x4000)] [(0x3000, 0xF024), (0x4000, 0x4100), (0x4001, 0x0042)])
    (fun t => t.output == [.out 0x00, .out 0x41, .out 0x42, .flush]) = true := by decide +kernel
/-- Vector H1. -/
theorem test_halt : stepGives (start 0x3006 1 [] [(0x3006, 0xF025)])
    (fun t => t.run == false && t.readReg 7 == 0x3007 && t.pc == 0x3007 && t.cond == 1) = true := by decide

/-- Section 2.8: after reset with nothing loaded the first step is a no-op. -/
theorem test_first_step_after_reset : step State.reset = .next { State.reset with pc := 0x3001 } := by rfl

/-- The document's own example S8, as file bytes. -/
theorem test_image_bytes : wordsOfBytes [0x30, 0x00, 0x00, 0x01, 0x00, 0x02, 0x00, 0x03] = some [0x3000, 1, 2, 3] ∧
    (State.reset.loadImage [0x3000, 1, 2, 3]).mem = [(0x3000, 1#16), (0x3001, 2#16), (0x3002, 3#16)] := by decide

/-- The placed instruction is the one the next step runs, from the reset PC and from 0xFE00. -/
theorem test_withFetchWord :
    stepGives (State.reset.withFetchWord 16 0x5020) (fun t => t.pc == 0x3001 && t.readReg 0 == 0) = true ∧
    stepGives ({ State.reset with pc := 0xFE00, run := false }.withFetchWord 16 0xE000) (fun t => t.readReg 0 == 0x3001) = true := by
  decide

/-! ### Witnesses: a state and operands that meet the hypotheses of each statement, at the boundaries of its clauses -/

/-- A machine in use: a store of 0xFE00 in R1, a character typed, a program word. -/
def busy : State := { start 0x3000 1 [(1, 0xFE00)] [(0x3000, 0xF020)] with kbq := [0x61] }

/-- A waiting machine to which a character will arrive at the second look. -/
def waiting (ph : Phase) : State := { start 0x3001 1 [] [] with phase := ph, arrivals := [[], [0x62]] }

theorem witness_decodeOfEncode :
    (∀ off, Instr.br true false false off ≠ .br false false false off) ∧ Instr.jmp 6 ≠ .jmp 7 ∧
      (∀ v, recognisedVect v = true → Instr.trap 0x26#8 ≠ .trap v) ∧ (∀ v, Instr.res ≠ .trapUnrecognised v) := by
  refine ⟨by simp, by decide, ?_, by simp⟩
  intro v h e
  cases e
  revert h
  decide

theorem witness_tableNames : (Instr.trapUnrecognised 0x26#8).WellFormed = true ∧ Instr.ret.WellFormed = true ∧
    Instr.halt.WellFormed = true ∧ (Instr.nop 0x1FF#9).WellFormed = true := by decide

theorem witness_ignoredBits : (0x1042#16 : Word) &&& ~~~ ignoredBits (decode 0x1042#16) =
    (0x105A#16 : Word) &&& ~~~ ignoredBits (decode 0x1042#16) ∧ (0x1042#16 : Word) ≠ 0x105A#16 := by decide

theorem witness_oneHot : CondOneHot 1#3 ∧ CondOneHot 2#3 ∧ CondOneHot 4#3 := ⟨.inl rfl, .inr (.inl rfl), .inr (.inr rfl)⟩

/-- One instruction of each clause: none, finished, and waiting. -/
theorem witness_condWriters :
    (∃ t, busy.phase = .fetch ∧ exec (.st 0 0) busy = .next t ∧ condRegister (.st 0 0) = none) ∧
    (∃ t, busy.phase = .fetch ∧ exec .getc busy = .next t ∧ t.phase = .fetch ∧ condRegister .getc = some 0) ∧
    (∃ t, State.reset.phase = .fetch ∧ exec .getc State.reset = .next t ∧ t.phase ≠ .fetch) :=
  ⟨⟨_, rfl, rfl, rfl⟩, ⟨_, rfl, rfl, rfl, rfl⟩, ⟨_, rfl, rfl, by decide⟩⟩

theorem witness_onlyBranchesReadCond :
    ∃ t, (∀ n z p off, Instr.lea 0 0 ≠ .br n z p off) ∧ exec (.lea 0 0) busy = .next t := ⟨_, by simp, rfl⟩

theorem witness_stores : storeAddress busy (.st 0 0x1FF#9) = some 0x2FFF ∧ storeAddress busy (.str 0 1 0x3F#6) = some 0xFDFF ∧
    storeAddress busy (.sti 0 0#9) = some 0xF020 := by decide

/-- A pointer to 0xFE01 at 0x3001 and one to 0x3000 at 0x3002. -/
def pointers : State := start 0x3000 1 [(1, 0xFE00), (2, 0x3000)] [(0x3001, 0xFE01), (0x3002, 0x3000)]

/-- Each store and each load, at the addresses on both sides of 0xFE00, in the state the store leaves. -/
theorem witness_loadAfterStore :
    storedRegister (.str 2 1 1#6) = some 2 ∧ storeAddress pointers (.str 2 1 1#6) = some 0xFE01 ∧
    loadsFrom (pointers.memWrite 0xFE01 0x3000) (.ldi 3 1#9) = some (3, 0xFE01) ∧
    storedRegister (.sti 2 1#9) = some 2 ∧ storeAddress pointers (.sti 2 1#9) = some 0xFE01 ∧
    loadsFrom pointers (.ldr 3 1 1#6) = some (3, 0xFE01) ∧ (0xFE01#16 : Word) ≠ 0xFE00#16 ∧
    storedRegister (.st 1 0x1FF#9) = some 1 ∧ storeAddress pointers (.st 1 0x1FF#9) = some 0x2FFF ∧
    loadsFrom pointers (.ld 3 0x1FF#9) = some (3, 0x2FFF) ∧
    (exec (.str 2 1 1#6) pointers = .next (pointers.memWrite 0xFE01 0x3000)) := by
  refine ⟨rfl, by decide, by decide, rfl, by decide, by decide, by decide, rfl, by decide, by decide, rfl⟩

theorem witness_storeThenFetch : pointers.run = true ∧ pointers.phase = .fetch ∧ pointers.pc ≠ 0xFE00#16 ∧
    storeAddress pointers (.st 0 0#9) = some pointers.pc ∧ storeAddress pointers (.str 0 2 0#6) = some pointers.pc ∧
    storeAddress pointers (.sti 0 2#9) = some pointers.pc ∧ storedRegister (.sti 0 2#9) = some 0 := by decide

/-- A character already typed, a character that arrives with the look, and none. -/
theorem witness_pending : busy.pending = [0x61] ∧ { State.reset with arrivals := [[0x62], [0x63]] }.pending = [0x62] ∧
    { State.reset with refill := [0x64] }.pending = [0x64] ∧
    State.reset.pending = [] ∧ (waiting .waitIn).pending = [] := by decide

theorem witness_pollThenRead : busy.readReg 1 = 0xFE00#16 ∧ (0 : Reg) ≠ 1 ∧ busy.pending = 0x61 :: [] := by decide

/-- Each way of being taken, and not. -/
theorem witness_branch : (start 0 4 [] []).cond = 4#3 ∧ (start 0 2 [] []).cond = 2#3 ∧ (start 0 1 [] []).cond = 1#3 ∧
    ¬ ((true = true ∧ (start 0 2 [] []).cond = 4#3) ∨ (false = true ∧ (start 0 2 [] []).cond = 2#3) ∨
      (true = true ∧ (start 0 2 [] []).cond = 1#3)) := by decide

theorem witness_reserved : ∀ s ∈ [start 0xFFFF 2 [] [(0xFFFF, 0x8FFF)], start 0 4 [] [(0, 0xD000)]],
    s.run = true ∧ s.phase = .fetch ∧ (decode (fetch s).1 = .rti ∨ decode (fetch s).1 = .res) := by decide

theorem witness_traps : isTrap (.trap 0x1F#8) = true ∧ isTrap .halt = true ∧ isTrap (.trapUnrecognised 0x26#8) = true ∧
    ∃ t, exec .puts busy = .next t := ⟨rfl, rfl, rfl, _, rfl⟩

/-- The vectors beside the six. -/
theorem witness_vectors : (0x1F#8).toNat < 0x20 ∧ 0x25 < (0x26#8).toNat ∧ ¬ (0x25 < (0x25#8).toNat) := by decide

theorem witness_getcAndIn : busy.phase = .fetch ∧ busy.pending = 0x61 :: [] := by decide

/-- Both waits, before the character comes and when it has. -/
theorem witness_waits : ∀ ph ∈ [Phase.waitGetc, Phase.waitIn], (waiting ph).run = true ∧
    ((waiting ph).phase = .waitGetc ∨ (waiting ph).phase = .waitIn) ∧ (waiting ph).pending = [] ∧
    { waiting ph with arrivals := [[0x62]] }.pending = 0x62 :: [] := by decide

/-- A string across the top of memory. -/
theorem witness_string :
    let s := start 0x3000 2 [(0, 0xFFFF)] [(0xFFFF, 0x0041), (0x0000, 0x4200)]
    let ws : List Word := [0x0041, 0x4200]
    s.phase = .fetch ∧ (∀ k, k < ws.length + 1 → s.readReg 0 + BitVec.ofNat 16 k ≠ 0xFE00#16) ∧
      (∀ k : Fin ws.length, s.mem.read (s.readReg 0 + BitVec.ofNat 16 k) = ws[k] ∧ ws[k] ≠ 0#16) ∧
      s.mem.read (s.readReg 0 + BitVec.ofNat 16 ws.length) = 0#16 := by decide

/-- The empty string, just below 0xFE00. -/
theorem witness_empty_string :
    let s := start 0x3000 2 [(0, 0xFDFF)] []
    s.phase = .fetch ∧ s.readReg 0 + BitVec.ofNat 16 0 ≠ 0xFE00#16 ∧ s.mem.read (s.readReg 0 + BitVec.ofNat 16 0) = 0#16 := by decide

theorem witness_printingWithNoInput : (start 0x3000 2 [(0, 0xFDFF)] [(0xFDFF, 1)]).pending = [] := by decide

/-- A loop that ends: one word and the zero word after it. -/
theorem witness_printLoop : ∃ bs t, PrintLoop (fun w => [BitVec.ofNat 8 (w.toNat % 256)]) 0x4000
    (start 0x3000 2 [(0, 0x4000)] [(0x4000, 0x0141)]).trapEntry bs t :=
  ⟨_, _, .word (by decide) (.stop (by decide))⟩

theorem lookup_ones (l : List Nat) (a : Nat) (h : a ∈ l) : Memory.lookup (l.map (fun a => (a, 1#16))) a = 1#16 := by
  induction l with
  | nil => cases h
  | cons b l ih =>
    by_cases e : a = b
    · simp [Memory.lookup, e]
    · simpa [Memory.lookup, e] using ih ((List.mem_cons.1 h).resolve_left e)

/-- A memory of ones; irreducible, so that nothing writes it out. -/
@[irreducible] def ones : Memory := (List.range Config.memWords).map (fun a => (a, 1#16))

theorem read_ones (a : Word) : ones.read a = 1#16 := by
  unfold ones
  exact lookup_ones _ _ (List.mem_range.2 a.isLt)

/-- A machine with no zero word in memory, whose user holds a key down. -/
def endless (ph : Phase) : State := { State.reset with mem := ones, refill := [0x61], phase := ph }

theorem witness_noZeroWord (ph : Phase) : (endless ph).NoZeroWord where
  words a _ := by
    rw [show (endless ph).mem.read a = 1#16 from read_ones a]
    decide
  noArrivals := rfl
  refill := List.cons_ne_nil _ _
  characters c h := by
    obtain rfl : c = 0x61 := by simpa [endless, State.reset, State.resetWith] using h
    decide

/-- A loop that never ends, before PUTS and while it prints. -/
theorem witness_endless (ph : Phase) (chars : Word → List Byte) (a : Word) :
    (¬ ∃ bs t, PrintLoop chars a (endless ph).trapEntry bs t) ∧ (¬ ∃ bs t, PrintLoop chars a (endless ph) bs t) ∧
      (endless ph).phase = ph ∧ (endless ph).run = true :=
  have h := witness_noZeroWord ph
  have h' : (endless ph).trapEntry.NoZeroWord := ⟨h.words, h.noArrivals, h.refill, h.characters⟩
  ⟨h'.endless chars a, h.endless chars a, rfl, rfl⟩

/-- A string at 0xFE00 with a character pending. -/
def atKbsr (w : Word) : State := { start 0x3000 2 [(0, 0xFE00)] [(0xFE01, w)] with kbq := [0x61, 0x62] }

/-- Its second word 0 and not. -/
theorem witness_acrossKbsr :
    (atKbsr 0).phase = .fetch ∧ (atKbsr 0).readReg 0 = 0xFE00#16 ∧ (atKbsr 0).pending = 0x61 :: [0x62] ∧
    (atKbsr 0).mem.read 0xFE01#16 = 0#16 ∧
    (atKbsr 0x42).phase = .fetch ∧ (atKbsr 0x42).readReg 0 = 0xFE00#16 ∧ (atKbsr 0x42).pending = 0x61 :: [0x62] ∧
    (atKbsr 0x42).mem.read 0xFE01#16 ≠ 0#16 ∧ (0x61#8 : Byte) ≠ 0#8 ∧ (atKbsr 0x42).mem.read 0xFE03#16 = 0#16 := by
  refine ⟨rfl, by decide, by decide, by decide, rfl, by decide, by decide, by decide, by decide, by decide⟩

theorem witness_takes : (∃ t, step busy = .next t ∧ readsString (decode (fetch busy).1) = false ∧ busy.phase = .fetch) ∧
    ∃ t, step (waiting .waitIn) = .next t ∧ (waiting .waitIn).phase = .waitIn :=
  ⟨⟨_, rfl, by decide, rfl⟩, _, rfl, rfl⟩

theorem witness_stepRuns : busy.run = true ∧ busy.phase = .fetch ∧ decode (busy.memRead busy.pc).1 = .getc ∧
    Instr.getc.WellFormed = true ∧ busy.pc ≠ 0xFE00#16 ∧ busy.mem.read busy.pc = encode .getc := by decide

theorem witness_fetchFromKbsr : let s := start 0xFE00 2 [] []
    s.run = true ∧ s.phase = .fetch ∧ s.pc = 0xFE00#16 := by decide

/-- A halted state is what HALT leaves. -/
theorem witness_halted : ∃ t, exec .halt State.reset = .next t ∧ t.run = false := ⟨_, rfl, rfl⟩

/-- A step of each kind: one that halts, one that does not redirect the PC, one that goes on with a TRAP. -/
theorem witness_steps :
    (∃ t, step (start 0x3000 2 [] [(0x3000, 0xF025)]) = .next t ∧ t.run = false) ∧
    (∃ t, step State.reset = .next t ∧ State.reset.phase = .fetch ∧
      redirects State.reset.cond (decode (State.reset.memRead State.reset.pc).1) = false ∧
      storeAddress (fetch State.reset).2 (decode (fetch State.reset).1) ≠ some 0x3001) ∧
    (∃ t, step (waiting .waitGetc) = .next t ∧ (waiting .waitGetc).phase ≠ .fetch) :=
  ⟨⟨_, rfl, rfl⟩, ⟨_, rfl, rfl, by decide, by decide⟩, ⟨_, rfl, by decide⟩⟩

theorem witness_destinations : ∃ t, exec (.jsr 0) busy = .next t ∧ destinations (.jsr 0) = [7] := ⟨_, rfl, rfl⟩

theorem witness_emits : ∃ t, exec .getc busy = .next t ∧ emits .getc = false := ⟨_, rfl, rfl⟩

/-- A state other than reset that meets the invariant, and steps. -/
theorem witness_invariant : busy.Inv ∧ ∃ t, step busy = .next t :=
  ⟨⟨by decide, .inl (by decide), by decide⟩, _, rfl⟩

/-- An image whose last word is at the top of the space, and one that runs over it. -/
theorem witness_image : (0xFFFF#16).toNat + 0 < 65536 ∧ ¬ ((0xFFFF#16).toNat + 1 < 65536) ∧
    (State.reset.loadImage [0xFFFF, 5, 6]).mem = [(0xFFFF, 5#16)] := by decide

end Sys2Proof.Tests
end

section
/-! PROOFS. The condition code (10_state.md R27). -/

namespace Sys2Proof.Machine

/-- R27's "changes nothing else", a part at a time: the registers, the PC, memory, the console, RUN and the phase. -/
theorem State.setcc_frame (s : State) (r : Reg) :
    SameRegsExcept [] s (s.setcc r) ∧ (s.setcc r).pc = s.pc ∧ SameMemory s (s.setcc r) ∧
      SameConsole s (s.setcc r) ∧ SameMode s (s.setcc r) := by
  have registers : SameRegsExcept [] s (s.setcc r) := fun q _ => s.readReg_setcc r q
  have memory : SameMemory s (s.setcc r) := fun a => congrArg (·.read a) (s.setcc_mem r)
  have input : SameInput s (s.setcc r) := ⟨s.setcc_kbq r, s.setcc_arrivals r, s.setcc_refill r⟩
  exact ⟨registers, s.setcc_pc r, memory, ⟨input, s.setcc_output r⟩, s.setcc_run r, s.setcc_phase r⟩

/-- Settles O9: the condition is `condOf` of the register's value, which is R27's derivation, and the rest is the frame of
`setcc`. -/
theorem setccDerivesTheConditionFromTheRegister : Obligations.SetccDerivesTheConditionFromTheRegister := by
  intro s r
  have condition : CondFor (s.readReg r) (s.setcc r).cond := by
    rw [State.setcc_cond]
    exact condFor_condOf (s.readReg r)
  exact ⟨condition, s.setcc_frame r⟩

end Sys2Proof.Machine
end

section
/-! PROOFS. The memory write and the memory read (20_memory.md R43, R46). -/

namespace Sys2Proof.Machine

/-- Both sides of a store in one equation: the word stored at its address, the old word at every other. -/
theorem State.read_memWrite (s : State) (a v b : Word) :
    (s.memWrite a v).mem.read b = if b = a then v else s.mem.read b :=
  s.mem.read_write a v b

/-- What R46's store leaves alone beside memory: the registers, the PC, COND, the console, RUN and the phase. -/
theorem State.memWrite_frame (s : State) (a v : Word) :
    (s.memWrite a v).regs = s.regs ∧ (s.memWrite a v).pc = s.pc ∧ (s.memWrite a v).cond = s.cond ∧
      SameConsole s (s.memWrite a v) ∧ SameMode s (s.memWrite a v) := by
  have input : SameInput s (s.memWrite a v) :=
    ⟨s.memWrite_kbq a v, s.memWrite_arrivals a v, s.memWrite_refill a v⟩
  have mode : SameMode s (s.memWrite a v) := ⟨s.memWrite_run a v, s.memWrite_phase a v⟩
  exact ⟨s.memWrite_regs a v, s.memWrite_pc a v, s.memWrite_cond a v, ⟨input, s.memWrite_output a v⟩, mode⟩

/-- Settles O19: the law of a read after a write, which has no case for a device address, and the frame of the store. -/
theorem memWriteStoresUnconditionally : Obligations.MemWriteStoresUnconditionally := by
  intro s a v b
  exact ⟨s.read_memWrite a v b, s.memWrite_frame a v⟩

/-- R43's case of the status word: the value and the state of the read are both those after the hook. -/
theorem State.memRead_at_kbsr (s : State) :
    s.memRead Config.kbsr = (s.kbdHook.mem.read Config.kbsr, s.kbdHook) := by
  rw [State.memRead, s.readHook_kbsr]

/-- Settles O24: a read elsewhere than 0xFE00 is the stored word and the same state, and a read there is the hook's. -/
theorem memReadRunsTheHookAtKbsrOnly : Obligations.MemReadRunsTheHookAtKbsrOnly := by
  intro s a
  constructor
  · intro elsewhere
    exact s.memRead_ne elsewhere
  · rintro rfl
    exact s.memRead_at_kbsr

end Sys2Proof.Machine
end

section
/-! PROOFS. The operate instructions AND and NOT (40_operate.md R82, R83, R85). -/

namespace Sys2Proof.Machine

@[simp] theorem exec_andReg (dr sr1 sr2 : Reg) (s : State) :
    exec (.andReg dr sr1 sr2) s = .next (s.writeRegCC dr (s.readReg sr1 &&& s.readReg sr2)) := rfl

@[simp] theorem exec_andImm (dr sr1 : Reg) (imm : BitVec 5) (s : State) :
    exec (.andImm dr sr1 imm) s = .next (s.writeRegCC dr (s.readReg sr1 &&& sext imm)) := rfl

@[simp] theorem exec_notReg (dr sr : Reg) (s : State) :
    exec (.notReg dr sr) s = .next (s.writeRegCC dr (~~~ s.readReg sr)) := rfl

/-- Settles O14: each form writes the AND of its two operands as an operate result, and the AND of two words is taken bit
by bit. -/
theorem andWritesTheBitwiseAnd : Obligations.AndWritesTheBitwiseAnd := by
  constructor
  · intro dr sr1 sr2 s
    exact ⟨_, _, exec_andReg dr sr1 sr2 s, fun _ _ => BitVec.getLsbD_and, s.writeRegCC_result dr _⟩
  · intro dr sr1 imm s
    exact ⟨_, _, exec_andImm dr sr1 imm s, fun _ _ => BitVec.getLsbD_and, s.writeRegCC_result dr _⟩

/-- Settles O15: NOT writes the complement of its operand as an operate result, and as a number the complement of a 16-bit
word is what it lacks to `0xFFFF`. -/
theorem notWritesTheComplement : Obligations.NotWritesTheComplement := by
  intro dr sr s
  exact ⟨_, _, exec_notReg dr sr s, BitVec.toNat_not, s.writeRegCC_result dr _⟩

end Sys2Proof.Machine
end

section
/-! PROOFS. The register jump JMP and its use RET (41_control.md R92, R93). -/

namespace Sys2Proof.Machine

/-- A jump loads the PC and changes nothing else. -/
theorem State.jump_onlyPC (s : State) (target : Word) : OnlyPC target s (s.jump target) where
  pc := s.jump_pc target
  registers := fun r _ => s.readReg_jump target r
  cond := s.jump_cond target
  memory := fun a => congrArg (·.read a) (s.jump_mem target)
  console := ⟨⟨s.jump_kbq target, s.jump_arrivals target, s.jump_refill target⟩, s.jump_output target⟩
  mode := ⟨s.jump_run target, s.jump_phase target⟩

@[simp] theorem exec_jmp (base : Reg) (s : State) : exec (.jmp base) s = .next (s.jump (s.readReg base)) := rfl

/-- RET is JMP R7, with no special case (R93). -/
theorem exec_ret_eq_exec_jmp_seven (s : State) : exec .ret s = exec (.jmp 7) s := rfl

/-- Settles O28: JMP is a jump to the value of its base register, a jump changes the PC only, and RET is JMP R7. -/
theorem jmpLoadsThePCFromTheBaseRegister : Obligations.JmpLoadsThePCFromTheBaseRegister := by
  have jmp (base : Reg) (s : State) : ∃ t, exec (.jmp base) s = .next t ∧ OnlyPC (s.readReg base) s t :=
    ⟨_, exec_jmp base s, s.jump_onlyPC (s.readReg base)⟩
  refine ⟨jmp, fun s => ?_⟩
  rw [exec_ret_eq_exec_jmp_seven]
  exact jmp 7 s

end Sys2Proof.Machine
end

section
/-! PROOFS. The trap routine OUT (43_trap.md R120, R124). -/

namespace Sys2Proof.Machine

/-- The low byte of a word, as a number, is what is left of it modulo 256. -/
theorem toNat_lowByte (w : Word) : (lowByte w).toNat = w.toNat % 256 := by
  simp [lowByte]

/-- A routine that writes no register and does not move the PC leaves the frame that trap entry made. -/
theorem TrapFrame.of_trapEntry {s t : State} (regs : t.regs = s.trapEntry.regs) (pc : t.pc = s.pc) : TrapFrame s t where
  link := (State.readReg_congr regs 7).trans s.readReg_trapEntry_seven
  pc := pc
  registers := by
    intro r hr
    have ne_seven : r ≠ 7 := List.ne_of_not_mem_cons (List.not_mem_of_not_mem_cons hr)
    exact (State.readReg_congr regs r).trans (s.readReg_trapEntry_ne ne_seven)

/-- Trap entry leaves R0, which OUT, PUTS and PUTSP read, as it was. -/
@[simp] theorem State.readReg_trapEntry_zero (s : State) : s.trapEntry.readReg 0 = s.readReg 0 :=
  s.readReg_trapEntry_ne (by decide)

@[simp] theorem outRoutine_output (s : State) :
    (outRoutine s).output = s.output ++ [.out (lowByte (s.readReg 0)), .flush] := by
  simp [outRoutine]

/-- R124's routine only writes output, a part at a time: the registers, the PC, COND, memory, the input, RUN and the phase. -/
theorem outRoutine_frame (s : State) :
    (outRoutine s).regs = s.regs ∧ (outRoutine s).pc = s.pc ∧ (outRoutine s).cond = s.cond ∧
      SameMemory s (outRoutine s) ∧ SameInput s (outRoutine s) ∧ SameMode s (outRoutine s) := by
  simp [outRoutine, SameMemory, SameInput, SameMode]

@[simp] theorem exec_out (s : State) : exec .out s = .next (outRoutine s.trapEntry) := rfl

/-- Settles O36: the routine's two events are added to the output that trap entry left, its byte is read from the R0 that
trap entry kept, and what it leaves alone is the state after trap entry, which is the old one but for R7. -/
theorem outEmitsTheLowByteOfR0 : Obligations.OutEmitsTheLowByteOfR0 := by
  intro s
  obtain ⟨regs, pc, cond, memory, input, mode⟩ := outRoutine_frame s.trapEntry
  have output : (outRoutine s.trapEntry).output = s.output ++ [.out (lowByte (s.readReg 0)), .flush] := by simp
  have r0 : (outRoutine s.trapEntry).readReg 0 = s.readReg 0 :=
    (State.readReg_congr regs 0).trans s.readReg_trapEntry_zero
  exact ⟨_, _, exec_out s, toNat_lowByte _, output, .of_trapEntry regs pc, r0, cond, memory, input, mode⟩

end Sys2Proof.Machine
end

section
/-! PROOFS. The reserved opcodes RTI and RES, and the step that fetches (44_reserved.md R140, R141, R142; 10_state.md R24). -/

namespace Sys2Proof.Machine

/-- R24 for a running machine with no TRAP in progress: the step executes what it fetched, from the state after the fetch. -/
theorem step_of_fetch {s : State} (run : s.run = true) (phase : s.phase = .fetch) :
    step s = exec (decode (fetch s).1) (fetch s).2 := by
  simp [step, run, phase]

@[simp] theorem exec_rti (s : State) : exec .rti s = .next s := rfl

@[simp] theorem exec_res (s : State) : exec .res s = .next s := rfl

/-- Settles O30: both opcodes answer the state they are given, which in a whole step is the state after the fetch. -/
theorem reservedOpcodesAreNoOps : Obligations.ReservedOpcodesAreNoOps := by
  constructor
  · intro s
    exact ⟨exec_rti s, exec_res s⟩
  · intro s run phase reserved
    rw [step_of_fetch run phase]
    rcases reserved with rti | res
    · rw [rti, exec_rti]
    · rw [res, exec_res]

end Sys2Proof.Machine
end

section
/-! PROOFS. The words of the instructions and their decoding (30_encoding.md R62 to R75). -/

namespace Sys2Proof

/-! ### Names and core instructions -/

/-- R72 reads the word of every instruction as its core instruction: the family `RoundTrip`, in one statement. -/
theorem decodeCore_encode (i : Instr) : decodeCore (encode i) = expand i := by
  cases i with
  | br n z p off => exact Laws.RoundTrip.br n z p off
  | addReg dr sr1 sr2 => exact Laws.RoundTrip.addReg dr sr1 sr2
  | addImm dr sr1 imm => exact Laws.RoundTrip.addImm dr sr1 imm
  | ld dr off => exact Laws.RoundTrip.ld dr off
  | st sr off => exact Laws.RoundTrip.st sr off
  | jsr off => exact Laws.RoundTrip.jsr off
  | jsrr base => exact Laws.RoundTrip.jsrr base
  | andReg dr sr1 sr2 => exact Laws.RoundTrip.andReg dr sr1 sr2
  | andImm dr sr1 imm => exact Laws.RoundTrip.andImm dr sr1 imm
  | ldr dr base off => exact Laws.RoundTrip.ldr dr base off
  | str sr base off => exact Laws.RoundTrip.str sr base off
  | rti => exact Laws.RoundTrip.rti
  | notReg dr sr => exact Laws.RoundTrip.notReg dr sr
  | ldi dr off => exact Laws.RoundTrip.ldi dr off
  | sti sr off => exact Laws.RoundTrip.sti sr off
  | jmp base => exact Laws.RoundTrip.jmp base
  | res => exact Laws.RoundTrip.res
  | lea dr off => exact Laws.RoundTrip.lea dr off
  | trap v => exact Laws.RoundTrip.trap v
  | getc => exact Laws.RoundTrip.getc
  | out => exact Laws.RoundTrip.out
  | puts => exact Laws.RoundTrip.puts
  | inChar => exact Laws.RoundTrip.inChar
  | putsp => exact Laws.RoundTrip.putsp
  | halt => exact Laws.RoundTrip.halt
  | trapUnrecognised v => exact Laws.RoundTrip.trapUnrecognised v
  | ret => exact Laws.RoundTrip.ret
  | nop off => exact Laws.RoundTrip.nop off

theorem decode_encode (i : Instr) : decode (encode i) = resolve (expand i) := by
  rw [decode, decodeCore_encode]

/-- The vectors of no routine, and the six routines' vectors (30_encoding.md R75). -/
theorem vect_cases (v : Vect) :
    recognisedVect v = false ∨ v = Config.vectGetc ∨ v = Config.vectOut ∨ v = Config.vectPuts ∨ v = Config.vectIn ∨
      v = Config.vectPutsp ∨ v = Config.vectHalt := by
  cases h : recognisedVect v
  · simp
  · simpa [recognisedVect, or_assoc] using h

theorem resolveVect_of_unrecognised {v : Vect} (h : recognisedVect v = false) : resolveVect v = .trap v := by
  simp only [recognisedVect, Bool.or_eq_false_iff, beq_eq_false_iff_ne] at h
  simp [resolveVect, h]

/-- The closest name stands for the same core instruction. -/
@[simp] theorem expand_resolve (i : Instr) : expand (resolve i) = expand i := by
  cases i with
  | br n z p off =>
    by_cases h : (n || z || p) = true
    · rw [resolve, if_pos h]
    · rw [resolve, if_neg h]
      simp only [Bool.or_eq_true, not_or, Bool.not_eq_true] at h
      obtain ⟨⟨rfl, rfl⟩, rfl⟩ := h
      rfl
  | jmp base =>
    by_cases h : base = 7
    · rw [resolve, if_pos h, h]
      rfl
    · rw [resolve, if_neg h]
  | trap v =>
    rcases vect_cases v with h | rfl | rfl | rfl | rfl | rfl | rfl
    · rw [resolve, resolveVect_of_unrecognised h]
    all_goals rfl
  | _ => rfl

/-- Every name is written as its core instruction is (30_encoding.md R74). -/
theorem encode_expand (i : Instr) : encode (expand i) = encode i := by cases i <;> rfl

theorem ignoredBits_expand (i : Instr) : ignoredBits (expand i) = ignoredBits i := by cases i <;> rfl

@[simp] theorem encode_resolve (i : Instr) : encode (resolve i) = encode i := by
  rw [← encode_expand, expand_resolve, encode_expand]

@[simp] theorem ignoredBits_resolve (i : Instr) : ignoredBits (resolve i) = ignoredBits i := by
  rw [← ignoredBits_expand, expand_resolve, ignoredBits_expand]

/-- An instruction that is no second name is its own closest name. -/
theorem resolve_expand_self {i : Instr} (br : ∀ off, i ≠ .br false false false off) (jmp : i ≠ .jmp 7)
    (trap : ∀ v, recognisedVect v = true → i ≠ .trap v) (unrecognised : ∀ v, i ≠ .trapUnrecognised v) :
    resolve (expand i) = i := by
  cases i with
  | br n z p off =>
    refine if_pos ?_
    by_contra h
    simp only [Bool.or_eq_true, not_or, Bool.not_eq_true] at h
    obtain ⟨⟨rfl, rfl⟩, rfl⟩ := h
    exact br off rfl
  | jmp base =>
    have h : base ≠ 7 := fun h => jmp (congrArg Instr.jmp h)
    exact if_neg h
  | trap v => exact resolveVect_of_unrecognised (Bool.eq_false_iff.2 fun h => trap v h rfl)
  | trapUnrecognised v => exact absurd rfl (unrecognised v)
  | _ => rfl

/-- Settles O1: R72 reads an encoded word as the core instruction, whose closest name is the instruction itself if it is no
second name. -/
theorem decodeOfEncodeGivesTheInstruction : Obligations.DecodeOfEncodeGivesTheInstruction := by
  intro i
  refine ⟨decode_encode i, fun br jmp trap unrecognised => ?_⟩
  rw [decode_encode, resolve_expand_self br jmp trap unrecognised]

/-! ### The bits two words agree on -/

/-- The two words have the same bits wherever `m` has a 1. -/
def AgreeOn (m u w : Word) : Prop := u &&& m = w &&& m

theorem AgreeOn.or {m n u w : Word} (h : AgreeOn m u w) (k : AgreeOn n u w) : AgreeOn (m ||| n) u w := by
  simp only [AgreeOn, BitVec.and_or_distrib_left] at *
  rw [h, k]

theorem AgreeOn.mono {m n u w : Word} (h : AgreeOn m u w) (hn : m &&& n = n) : AgreeOn n u w := by
  rw [AgreeOn, ← hn, ← BitVec.and_assoc, ← BitVec.and_assoc, h]

theorem AgreeOn.getLsbD {m u w : Word} (h : AgreeOn m u w) {k : Nat} (hk : m.getLsbD k = true) :
    u.getLsbD k = w.getLsbD k := by
  simpa [hk] using congrArg (·.getLsbD k) h

theorem agreeOn_of_getLsbD {m u w : Word} (h : ∀ k, m.getLsbD k = true → u.getLsbD k = w.getLsbD k) : AgreeOn m u w := by
  refine BitVec.eq_of_getLsbD_eq fun k _ => ?_
  rw [BitVec.getLsbD_and, BitVec.getLsbD_and]
  cases hk : m.getLsbD k with
  | false => simp
  | true => rw [h k hk]

/-- The word with a 1 in each bit of the field of `n` bits from bit `lo` on. -/
def fieldMask (lo n : Nat) : Word := ((BitVec.allOnes n).setWidth 16) <<< lo

theorem getLsbD_fieldMask (lo n k : Nat) (h : lo + n ≤ 16) :
    (fieldMask lo n).getLsbD k = true ↔ lo ≤ k ∧ k < lo + n := by
  simp only [fieldMask, BitVec.getLsbD_shiftLeft, BitVec.getLsbD_setWidth, BitVec.getLsbD_allOnes, Bool.and_eq_true,
    decide_eq_true_eq, Bool.not_eq_true', decide_eq_false_iff_not]
  omega

/-- Two words have the same field exactly if they agree on its bits. -/
theorem extract_eq_iff {u w : Word} {lo n : Nat} (h : lo + n ≤ 16) :
    u.extractLsb' lo n = w.extractLsb' lo n ↔ AgreeOn (fieldMask lo n) u w := by
  constructor
  · intro e
    refine agreeOn_of_getLsbD fun k hk => ?_
    obtain ⟨hlo, hhi⟩ := (getLsbD_fieldMask lo n k h).1 hk
    have := congrArg (·.getLsbD (k - lo)) e
    simpa [show k - lo < n by omega, Nat.add_sub_cancel' hlo] using this
  · intro a
    refine BitVec.eq_of_getLsbD_eq fun k hk => ?_
    simpa [hk] using a.getLsbD ((getLsbD_fieldMask lo n (lo + k) h).2 (by omega))

theorem opcodeField_eq_iff {u w : Word} : opcodeField u = opcodeField w ↔ AgreeOn 0xF000#16 u w :=
  extract_eq_iff (by decide)

theorem regField_eq_iff {u w : Word} {lo : Nat} (h : lo + 3 ≤ 16) :
    regField u lo = regField w lo ↔ AgreeOn (fieldMask lo 3) u w := by
  rw [← extract_eq_iff h]
  exact ⟨fun e => BitVec.eq_of_toFin_eq e, fun e => congrArg BitVec.toFin e⟩

theorem imm5Field_eq_iff {u w : Word} : imm5Field u = imm5Field w ↔ AgreeOn 0x001F#16 u w := extract_eq_iff (by decide)
theorem off6Field_eq_iff {u w : Word} : off6Field u = off6Field w ↔ AgreeOn 0x003F#16 u w := extract_eq_iff (by decide)
theorem off9Field_eq_iff {u w : Word} : off9Field u = off9Field w ↔ AgreeOn 0x01FF#16 u w := extract_eq_iff (by decide)
theorem off11Field_eq_iff {u w : Word} : off11Field u = off11Field w ↔ AgreeOn 0x07FF#16 u w := extract_eq_iff (by decide)
theorem vectField_eq_iff {u w : Word} : vectField u = vectField w ↔ AgreeOn 0x00FF#16 u w := extract_eq_iff (by decide)

theorem getLsbD_eq_iff {u w : Word} {k : Nat} (h : k + 1 ≤ 16) :
    u.getLsbD k = w.getLsbD k ↔ AgreeOn (fieldMask k 1) u w := by
  constructor
  · intro e
    refine agreeOn_of_getLsbD fun j hj => ?_
    obtain rfl : j = k := by have := (getLsbD_fieldMask k 1 j h).1 hj; omega
    exact e
  · intro a
    exact a.getLsbD ((getLsbD_fieldMask k 1 k h).2 (by omega))

/-! ### A word from its fields: each format writes the fields R64 gives it -/

theorem wordOPR_agreeOn {op : Opcode} {w : Word} (h : opcodeField w = op.number) (hb : w.getLsbD 5 = false) :
    AgreeOn (~~~0x0018#16) (wordOPR op (regField w 9) (regField w 6) (regField w 0)) w := by
  have opcode := opcodeField_eq_iff.1 ((wordOPR_opcode op (regField w 9) (regField w 6) (regField w 0)).trans h.symm)
  have dr := (regField_eq_iff (by decide)).1 (wordOPR_dr op (regField w 9) (regField w 6) (regField w 0))
  have sr1 := (regField_eq_iff (by decide)).1 (wordOPR_sr1 op (regField w 9) (regField w 6) (regField w 0))
  have flag := (getLsbD_eq_iff (by decide)).1 ((wordOPR_flag op (regField w 9) (regField w 6) (regField w 0)).trans hb.symm)
  have sr2 := (regField_eq_iff (by decide)).1 (wordOPR_sr2 op (regField w 9) (regField w 6) (regField w 0))
  exact ((((opcode.or dr).or sr1).or flag).or sr2).mono (by decide)

theorem wordOPI_agreeOn {op : Opcode} {w : Word} (h : opcodeField w = op.number) (hb : w.getLsbD 5 = true) :
    AgreeOn (~~~0x0000#16) (wordOPI op (regField w 9) (regField w 6) (imm5Field w)) w := by
  have opcode := opcodeField_eq_iff.1 ((wordOPI_opcode op (regField w 9) (regField w 6) (imm5Field w)).trans h.symm)
  have dr := (regField_eq_iff (by decide)).1 (wordOPI_dr op (regField w 9) (regField w 6) (imm5Field w))
  have sr1 := (regField_eq_iff (by decide)).1 (wordOPI_sr1 op (regField w 9) (regField w 6) (imm5Field w))
  have flag := (getLsbD_eq_iff (by decide)).1 ((wordOPI_flag op (regField w 9) (regField w 6) (imm5Field w)).trans hb.symm)
  have imm := imm5Field_eq_iff.1 (wordOPI_imm op (regField w 9) (regField w 6) (imm5Field w))
  exact ((((opcode.or dr).or sr1).or flag).or imm).mono (by decide)

theorem wordNOT_agreeOn {w : Word} (h : opcodeField w = Opcode.NOT.number) :
    AgreeOn (~~~0x003F#16) (wordNOT (regField w 9) (regField w 6)) w := by
  have opcode := opcodeField_eq_iff.1 ((wordNOT_opcode (regField w 9) (regField w 6)).trans h.symm)
  have dr := (regField_eq_iff (by decide)).1 (wordNOT_dr (regField w 9) (regField w 6))
  have sr := (regField_eq_iff (by decide)).1 (wordNOT_sr (regField w 9) (regField w 6))
  exact ((opcode.or dr).or sr).mono (by decide)

theorem wordBR_agreeOn {w : Word} (h : opcodeField w = Opcode.BR.number) :
    AgreeOn (~~~0x0000#16) (wordBR (w.getLsbD 11) (w.getLsbD 10) (w.getLsbD 9) (off9Field w)) w := by
  have opcode := opcodeField_eq_iff.1
    ((wordBR_opcode (w.getLsbD 11) (w.getLsbD 10) (w.getLsbD 9) (off9Field w)).trans h.symm)
  have n := (getLsbD_eq_iff (by decide)).1 (wordBR_n (w.getLsbD 11) (w.getLsbD 10) (w.getLsbD 9) (off9Field w))
  have z := (getLsbD_eq_iff (by decide)).1 (wordBR_z (w.getLsbD 11) (w.getLsbD 10) (w.getLsbD 9) (off9Field w))
  have p := (getLsbD_eq_iff (by decide)).1 (wordBR_p (w.getLsbD 11) (w.getLsbD 10) (w.getLsbD 9) (off9Field w))
  have off := off9Field_eq_iff.1 (wordBR_off (w.getLsbD 11) (w.getLsbD 10) (w.getLsbD 9) (off9Field w))
  exact ((((opcode.or n).or z).or p).or off).mono (by decide)

theorem wordJMP_agreeOn {w : Word} (h : opcodeField w = Opcode.JMP.number) :
    AgreeOn (~~~0x0E3F#16) (wordJMP (regField w 6)) w := by
  have opcode := opcodeField_eq_iff.1 ((wordJMP_opcode (regField w 6)).trans h.symm)
  have base := (regField_eq_iff (by decide)).1 (wordJMP_base (regField w 6))
  exact (opcode.or base).mono (by decide)

theorem wordJSR_agreeOn {w : Word} (h : opcodeField w = Opcode.JSR.number) (hb : w.getLsbD 11 = true) :
    AgreeOn (~~~0x0000#16) (wordJSR (off11Field w)) w := by
  have opcode := opcodeField_eq_iff.1 ((wordJSR_opcode (off11Field w)).trans h.symm)
  have flag := (getLsbD_eq_iff (by decide)).1 ((wordJSR_flag (off11Field w)).trans hb.symm)
  have off := off11Field_eq_iff.1 (wordJSR_off (off11Field w))
  exact ((opcode.or flag).or off).mono (by decide)

theorem wordJSRR_agreeOn {w : Word} (h : opcodeField w = Opcode.JSR.number) (hb : w.getLsbD 11 = false) :
    AgreeOn (~~~0x063F#16) (wordJSRR (regField w 6)) w := by
  have opcode := opcodeField_eq_iff.1 ((wordJSRR_opcode (regField w 6)).trans h.symm)
  have flag := (getLsbD_eq_iff (by decide)).1 ((wordJSRR_flag (regField w 6)).trans hb.symm)
  have base := (regField_eq_iff (by decide)).1 (wordJSRR_base (regField w 6))
  exact ((opcode.or flag).or base).mono (by decide)

theorem wordPC9_agreeOn {op : Opcode} {w : Word} (h : opcodeField w = op.number) :
    AgreeOn (~~~0x0000#16) (wordPC9 op (regField w 9) (off9Field w)) w := by
  have opcode := opcodeField_eq_iff.1 ((wordPC9_opcode op (regField w 9) (off9Field w)).trans h.symm)
  have reg := (regField_eq_iff (by decide)).1 (wordPC9_reg op (regField w 9) (off9Field w))
  have off := off9Field_eq_iff.1 (wordPC9_off op (regField w 9) (off9Field w))
  exact ((opcode.or reg).or off).mono (by decide)

theorem wordBO6_agreeOn {op : Opcode} {w : Word} (h : opcodeField w = op.number) :
    AgreeOn (~~~0x0000#16) (wordBO6 op (regField w 9) (regField w 6) (off6Field w)) w := by
  have opcode := opcodeField_eq_iff.1 ((wordBO6_opcode op (regField w 9) (regField w 6) (off6Field w)).trans h.symm)
  have reg := (regField_eq_iff (by decide)).1 (wordBO6_reg op (regField w 9) (regField w 6) (off6Field w))
  have base := (regField_eq_iff (by decide)).1 (wordBO6_base op (regField w 9) (regField w 6) (off6Field w))
  have off := off6Field_eq_iff.1 (wordBO6_off op (regField w 9) (regField w 6) (off6Field w))
  exact (((opcode.or reg).or base).or off).mono (by decide)

theorem wordTRAP_agreeOn {w : Word} (h : opcodeField w = Opcode.TRAP.number) :
    AgreeOn (~~~0x0F00#16) (wordTRAP (vectField w)) w := by
  have opcode := opcodeField_eq_iff.1 ((wordTRAP_opcode (vectField w)).trans h.symm)
  have vect := vectField_eq_iff.1 (wordTRAP_vect (vectField w))
  exact (opcode.or vect).mono (by decide)

theorem wordNONE_agreeOn {op : Opcode} {w : Word} (h : opcodeField w = op.number) :
    AgreeOn (~~~0x0FFF#16) (wordNONE op) w :=
  opcodeField_eq_iff.1 ((wordNONE_opcode op).trans h.symm)

/-- Every word has one of the 16 opcodes (R66). -/
theorem exists_opcode (w : Word) : ∃ op : Opcode, opcodeField w = op.number := by
  have : ∀ n : OpcodeNumber, n = (opcodeOf n).number := by decide
  exact ⟨_, this (opcodeField w)⟩

/-- The encoder's word for a decoded instruction has every examined bit of the word decoded, format by format. -/
theorem encode_decodeCore_agreeOn (w : Word) : AgreeOn (~~~ ignoredBits (decodeCore w)) (encode (decodeCore w)) w := by
  obtain ⟨op, h⟩ := exists_opcode w
  cases op <;> simp only [decodeCore, h, opcodeOf_number]
  case BR => exact wordBR_agreeOn h
  case ADD | AND =>
    cases hb : w.getLsbD 5
    · exact wordOPR_agreeOn h hb
    · exact wordOPI_agreeOn h hb
  case JSR =>
    cases hb : w.getLsbD 11
    · exact wordJSRR_agreeOn h hb
    · exact wordJSR_agreeOn h hb
  case LDR | STR => exact wordBO6_agreeOn h
  case RTI | RES => exact wordNONE_agreeOn h
  case NOT => exact wordNOT_agreeOn h
  case JMP => exact wordJMP_agreeOn h
  case TRAP => exact wordTRAP_agreeOn h
  case LD | ST | LDI | STI | LEA => exact wordPC9_agreeOn h

/-- The same under the closest name, which is written alike. -/
theorem encode_decode_agreeOn (w : Word) : AgreeOn (~~~ ignoredBits (decode w)) (encode (decode w)) w := by
  simpa only [decode, encode_resolve, ignoredBits_resolve] using encode_decodeCore_agreeOn w

/-- Settles O3: the closest name is written as the core instruction is, and R72's instruction is written from the fields it
was read from. -/
theorem encodeOfDecodeKeepsEveryExaminedBit : Obligations.EncodeOfDecodeKeepsEveryExaminedBit :=
  encode_decode_agreeOn

/-- The opcode is no ignored bit. -/
theorem opcode_examined (i : Instr) : ~~~ ignoredBits i &&& 0xF000#16 = 0xF000#16 := by
  cases i <;> simp only [ignoredBits] <;> decide

/-- R72 examines no ignored bit: it reads the same fields from a word with the same examined bits. -/
theorem decodeCore_congr {w v : Word} (h : AgreeOn (~~~ ignoredBits (decodeCore w)) w v) : decodeCore v = decodeCore w := by
  obtain ⟨op, hw⟩ := exists_opcode w
  have hv : opcodeField v = op.number := (opcodeField_eq_iff.2 (h.mono (opcode_examined _))).symm.trans hw
  have reg {m : Word} (lo : Nat) (hlo : lo + 3 ≤ 16) (k : AgreeOn m w v) (hm : m &&& fieldMask lo 3 = fieldMask lo 3) :
      regField v lo = regField w lo := ((regField_eq_iff hlo).2 (k.mono hm)).symm
  have flag {m : Word} (j : Nat) (hj : j + 1 ≤ 16) (k : AgreeOn m w v) (hm : m &&& fieldMask j 1 = fieldMask j 1) :
      v.getLsbD j = w.getLsbD j := ((getLsbD_eq_iff hj).2 (k.mono hm)).symm
  cases op <;> simp only [decodeCore, hw, hv, opcodeOf_number] at h ⊢
  case BR =>
    simp only [ignoredBits] at h
    rw [flag 11 (by decide) h (by decide), flag 10 (by decide) h (by decide), flag 9 (by decide) h (by decide),
      off9Field_eq_iff.2 (h.mono (by decide))]
  case ADD | AND =>
    cases hb : w.getLsbD 5 <;> simp only [hb, Bool.false_eq_true, if_false, if_true, ignoredBits] at h
    · rw [flag 5 (by decide) h (by decide), hb, reg 9 (by decide) h (by decide), reg 6 (by decide) h (by decide),
        reg 0 (by decide) h (by decide)]
      rfl
    · rw [flag 5 (by decide) h (by decide), hb, reg 9 (by decide) h (by decide), reg 6 (by decide) h (by decide),
        imm5Field_eq_iff.2 (h.mono (by decide))]
      rfl
  case JSR =>
    cases hb : w.getLsbD 11 <;> simp only [hb, Bool.false_eq_true, if_false, if_true, ignoredBits] at h
    · rw [flag 11 (by decide) h (by decide), hb, reg 6 (by decide) h (by decide)]
      rfl
    · rw [flag 11 (by decide) h (by decide), hb, off11Field_eq_iff.2 (h.mono (by decide))]
      rfl
  case LDR | STR =>
    simp only [ignoredBits] at h
    rw [reg 9 (by decide) h (by decide), reg 6 (by decide) h (by decide), off6Field_eq_iff.2 (h.mono (by decide))]
  case NOT =>
    simp only [ignoredBits] at h
    rw [reg 9 (by decide) h (by decide), reg 6 (by decide) h (by decide)]
  case JMP =>
    simp only [ignoredBits] at h
    rw [reg 6 (by decide) h (by decide)]
  case TRAP =>
    simp only [ignoredBits] at h
    rw [vectField_eq_iff.2 (h.mono (by decide))]
  case LD | ST | LDI | STI | LEA =>
    simp only [ignoredBits] at h
    rw [reg 9 (by decide) h (by decide), off9Field_eq_iff.2 (h.mono (by decide))]

/-- Settles O4: the closest name ignores the same bits, and R72 reads the same instruction from the examined ones. -/
theorem ignoredBitsDoNotChangeTheInstruction : Obligations.IgnoredBitsDoNotChangeTheInstruction := by
  intro w v h
  rw [decode, ignoredBits_resolve] at h
  rw [decode, decode, decodeCore_congr h]

/-! ### The rows of the table -/

/-- A word of an opcode matches the row that looks at the opcode only. -/
theorem matches_opcode_row {op : Opcode} {u p : Word} (h : opcodeField u = op.number) (hp : wordNONE op = p) :
    u &&& 0xF000#16 = p := by
  have hm : wordNONE op &&& 0xF000#16 = wordNONE op := by cases op <;> decide
  rw [← hp, ← hm]
  exact opcodeField_eq_iff.1 (h.trans (wordNONE_opcode op).symm)

/-- A word of an opcode with bit `k` as in `p` matches the row of `p` that looks at the opcode and that bit. -/
theorem matches_flag_row {u p : Word} {k : Nat} (hk : k + 1 ≤ 16) (h : opcodeField u = opcodeField p)
    (hb : u.getLsbD k = p.getLsbD k) (hp : p &&& (0xF000#16 ||| fieldMask k 1) = p) :
    u &&& (0xF000#16 ||| fieldMask k 1) = p :=
  ((opcodeField_eq_iff.1 h).or ((getLsbD_eq_iff hk).1 hb)).trans hp

/-- Each instruction's own word matches its row (opcode_table.json). -/
theorem encode_matches_tableRow (i : Instr) : encode i &&& (tableRow i).mask = (tableRow i).pattern := by
  cases i with
  | br n z p off => exact matches_opcode_row (wordBR_opcode n z p off) rfl
  | addReg dr sr1 sr2 =>
    exact matches_flag_row (p := 0x1000#16) (k := 5) (by decide) (wordOPR_opcode .ADD dr sr1 sr2)
      (wordOPR_flag .ADD dr sr1 sr2) (by decide)
  | addImm dr sr1 imm =>
    exact matches_flag_row (p := 0x1020#16) (k := 5) (by decide) (wordOPI_opcode .ADD dr sr1 imm)
      (wordOPI_flag .ADD dr sr1 imm) (by decide)
  | andReg dr sr1 sr2 =>
    exact matches_flag_row (p := 0x5000#16) (k := 5) (by decide) (wordOPR_opcode .AND dr sr1 sr2)
      (wordOPR_flag .AND dr sr1 sr2) (by decide)
  | andImm dr sr1 imm =>
    exact matches_flag_row (p := 0x5020#16) (k := 5) (by decide) (wordOPI_opcode .AND dr sr1 imm)
      (wordOPI_flag .AND dr sr1 imm) (by decide)
  | jsr off =>
    exact matches_flag_row (p := 0x4800#16) (k := 11) (by decide) (wordJSR_opcode off)
      (wordJSR_flag off) (by decide)
  | jsrr base =>
    exact matches_flag_row (p := 0x4000#16) (k := 11) (by decide) (wordJSRR_opcode base)
      (wordJSRR_flag base) (by decide)
  | ld dr off => exact matches_opcode_row (wordPC9_opcode .LD dr off) rfl
  | st sr off => exact matches_opcode_row (wordPC9_opcode .ST sr off) rfl
  | ldr dr base off => exact matches_opcode_row (wordBO6_opcode .LDR dr base off) rfl
  | str sr base off => exact matches_opcode_row (wordBO6_opcode .STR sr base off) rfl
  | notReg dr sr => exact matches_opcode_row (wordNOT_opcode dr sr) rfl
  | ldi dr off => exact matches_opcode_row (wordPC9_opcode .LDI dr off) rfl
  | sti sr off => exact matches_opcode_row (wordPC9_opcode .STI sr off) rfl
  | jmp base => exact matches_opcode_row (wordJMP_opcode base) rfl
  | lea dr off => exact matches_opcode_row (wordPC9_opcode .LEA dr off) rfl
  | trap v => exact matches_opcode_row (wordTRAP_opcode v) rfl
  | trapUnrecognised v => exact matches_opcode_row (wordTRAP_opcode v) rfl
  | nop off =>
    have opcode := (opcodeField_eq_iff (w := 0#16)).1 (wordBR_opcode false false false off)
    have n := (getLsbD_eq_iff (w := 0#16) (by decide)).1 (wordBR_n false false false off)
    have z := (getLsbD_eq_iff (w := 0#16) (by decide)).1 (wordBR_z false false false off)
    have p := (getLsbD_eq_iff (w := 0#16) (by decide)).1 (wordBR_p false false false off)
    exact ((opcode.or n).or z).or p
  | rti | res | getc | out | puts | inChar | putsp | halt | ret => decide

/-- A row looks at no ignored bit. -/
theorem tableRow_mask_examined (i : Instr) : ~~~ ignoredBits i &&& (tableRow i).mask = (tableRow i).mask := by
  cases i <;> simp only [ignoredBits, tableRow] <;> decide

/-- A word with the examined bits of an instruction's own word matches the instruction's row. -/
theorem matches_tableRow {w : Word} {i : Instr} (h : AgreeOn (~~~ ignoredBits i) (encode i) w) :
    w &&& (tableRow i).mask = (tableRow i).pattern := by
  rw [← h.mono (tableRow_mask_examined i), encode_matches_tableRow]

/-- R72 answers a core instruction. -/
theorem expand_decodeCore (w : Word) : expand (decodeCore w) = decodeCore w := by
  obtain ⟨op, h⟩ := exists_opcode w
  cases op <;> simp only [decodeCore, h, opcodeOf_number]
  case ADD | AND | JSR => split <;> rfl
  all_goals rfl

/-- A core instruction's row is one of the 19. -/
theorem tableRow_mem_of_expand {i : Instr} (h : expand i = i) : tableRow i ∈ instructionRows := by
  cases i
  case getc | out | puts | inChar | putsp | halt | trapUnrecognised | ret | nop => cases h
  all_goals simp [tableRow, instructionRows]

/-- No word matches two of the 19 rows. -/
theorem instructionRow_unique {w : Word} {r q : Row} (hr : r ∈ instructionRows) (hq : q ∈ instructionRows)
    (mr : w &&& r.mask = r.pattern) (mq : w &&& q.mask = q.pattern) : r = q := by
  have disjoint : ∀ r ∈ instructionRows, ∀ q ∈ instructionRows, r.pattern &&& q.mask = q.pattern &&& r.mask → r = q := by
    decide
  refine disjoint r hr q hq ?_
  rw [← mr, ← mq, BitVec.and_assoc, BitVec.and_assoc, BitVec.and_comm r.mask]

/-- Settles O5: the word matches the row of the instruction R72 reads from it, and no word matches two rows. -/
theorem everyWordMatchesExactlyTheRowItDecodesTo : Obligations.EveryWordMatchesExactlyTheRowItDecodesTo := by
  intro w
  have mem := tableRow_mem_of_expand (expand_decodeCore w)
  have own := matches_tableRow (encode_decodeCore_agreeOn w)
  refine ⟨mem, fun r hr => ⟨fun h => instructionRow_unique hr mem h own, ?_⟩⟩
  rintro rfl
  exact own

/-- `resolve` makes no `trapUnrecognised`, the one name that can be ill formed. -/
theorem resolve_wellFormed {i : Instr} (h : i.WellFormed = true) : (resolve i).WellFormed = true := by
  cases i with
  | br n z p off => rw [resolve]; split <;> rfl
  | jmp base => rw [resolve]; split <;> rfl
  | trap v =>
    rcases vect_cases v with hv | rfl | rfl | rfl | rfl | rfl | rfl
    · rw [resolve, resolveVect_of_unrecognised hv]
      rfl
    all_goals rfl
  | _ => exact h

theorem wellFormed_of_expand {i : Instr} (h : expand i = i) : i.WellFormed = true := by
  cases i
  case trapUnrecognised => cases h
  all_goals rfl

theorem decode_wellFormed (w : Word) : (decode w).WellFormed = true :=
  resolve_wellFormed (wellFormed_of_expand (expand_decodeCore w))

/-- Settles O6: R72's instruction is a core instruction, of which `resolve` makes the closest name, and the word has the
examined bits of that name's own word. -/
theorem decodedInstructionsAreWellFormedNames : Obligations.DecodedInstructionsAreWellFormedNames := by
  intro w
  have closest : resolve (expand (decode w)) = decode w := by
    rw [decode, expand_resolve, expand_decodeCore]
  exact ⟨decode_wellFormed w, closest, matches_tableRow (encode_decode_agreeOn w)⟩

/-! ### Words and fields written out -/

/-- Settles O7, by running the decoder on each word. -/
theorem writtenOutWordsDecode : Obligations.WrittenOutWordsDecode := by
  unfold Obligations.WrittenOutWordsDecode
  decide

/-- R62 for any field narrower than a word: the bits above it are 1 if its sign bit is, which adds `0xFFFF - (2 ^ n - 1)`. -/
theorem toNat_sext {n : Nat} (hn : n < 16) (v : BitVec n) :
    (Machine.sext v).toNat = if v.getLsbD (n - 1) then v.toNat + (0xFFFF - (2 ^ n - 1)) else v.toNat := by
  have width : 2 ^ n ≤ 2 ^ 16 := Nat.pow_le_pow_right (by decide) hn.le
  have value : (v.setWidth 16).toNat = v.toNat := by
    rw [BitVec.toNat_setWidth, Nat.mod_eq_of_lt (v.isLt.trans_le width)]
  have pos : 0 < 2 ^ n := by positivity
  rw [Machine.sext, BitVec.toNat_signExtend, value, BitVec.msb_eq_getLsbD_last]
  split <;> omega

/-- Settles O8: R62's formula at the four widths; the vector field is the low byte of the word. -/
theorem signExtensionFillsWithTheSignBit : Obligations.SignExtensionFillsWithTheSignBit :=
  ⟨toNat_sext (by decide), toNat_sext (by decide), toNat_sext (by decide), toNat_sext (by decide), fun w => by
    rw [vectField, BitVec.extractLsb'_toNat, Nat.shiftRight_zero]⟩

end Sys2Proof
end

section
/-! PROOFS. What each instruction answers, one equation an instruction, and that a name runs as its core instruction
(30_encoding.md R74). -/

namespace Sys2Proof.Machine

@[simp] theorem exec_br (n z p : Bool) (off : Off9) (s : State) : exec (.br n z p off) s = .next (s.branch n z p off) := rfl

@[simp] theorem exec_addReg (dr sr1 sr2 : Reg) (s : State) :
    exec (.addReg dr sr1 sr2) s = .next (s.writeRegCC dr (s.readReg sr1 + s.readReg sr2)) := rfl

@[simp] theorem exec_addImm (dr sr1 : Reg) (imm : Imm5) (s : State) :
    exec (.addImm dr sr1 imm) s = .next (s.writeRegCC dr (s.readReg sr1 + sext imm)) := rfl

@[simp] theorem exec_lea (dr : Reg) (off : Off9) (s : State) :
    exec (.lea dr off) s = .next (s.writeRegCC dr (s.pcRelative off)) := rfl

@[simp] theorem exec_ld (dr : Reg) (off : Off9) (s : State) :
    exec (.ld dr off) s = .next (s.load dr (s.pcRelative off)) := rfl

@[simp] theorem exec_ldr (dr base : Reg) (off : Off6) (s : State) :
    exec (.ldr dr base off) s = .next (s.load dr (s.basePlus base off)) := rfl

@[simp] theorem exec_ldi (dr : Reg) (off : Off9) (s : State) :
    exec (.ldi dr off) s = .next ((s.memRead (s.pcRelative off)).2.load dr (s.memRead (s.pcRelative off)).1) := rfl

@[simp] theorem exec_st (sr : Reg) (off : Off9) (s : State) :
    exec (.st sr off) s = .next (s.memWrite (s.pcRelative off) (s.readReg sr)) := rfl

@[simp] theorem exec_str (sr base : Reg) (off : Off6) (s : State) :
    exec (.str sr base off) s = .next (s.memWrite (s.basePlus base off) (s.readReg sr)) := rfl

@[simp] theorem exec_sti (sr : Reg) (off : Off9) (s : State) :
    exec (.sti sr off) s =
      .next ((s.memRead (s.pcRelative off)).2.memWrite (s.memRead (s.pcRelative off)).1 (s.readReg sr)) := rfl

@[simp] theorem exec_jsr (off : Off11) (s : State) : exec (.jsr off) s = .next (s.link.jump (s.pcRelativeLong off)) := rfl

@[simp] theorem exec_jsrr (base : Reg) (s : State) : exec (.jsrr base) s = .next (s.link.jump (s.link.readReg base)) := rfl

@[simp] theorem exec_ret (s : State) : exec .ret s = .next (s.jump (s.readReg 7)) := rfl

/-- NOP never branches (30_encoding.md R70). -/
@[simp] theorem exec_nop (off : Off9) (s : State) : exec (.nop off) s = .next s := by
  simp [exec, execNop, State.branch]

@[simp] theorem exec_trap (v : Vect) (s : State) : exec (.trap v) s = .next (trapDispatch v s.trapEntry) := rfl

@[simp] theorem exec_getc (s : State) : exec .getc s = .next (getcRoutine s.trapEntry) := rfl

@[simp] theorem exec_puts (s : State) :
    exec .puts s = .next (s.trapEntry.print putsChars (.printing (s.readReg 0)) (s.readReg 0)) :=
  congrArg (fun a => Host.Outcome.next (putsRoutine a s.trapEntry)) s.readReg_trapEntry_zero

@[simp] theorem exec_inChar (s : State) : exec .inChar s = .next (inPromptRoutine s.trapEntry) := rfl

@[simp] theorem exec_putsp (s : State) :
    exec .putsp s = .next (s.trapEntry.print putspChars (.printingPacked (s.readReg 0)) (s.readReg 0)) :=
  congrArg (fun a => Host.Outcome.next (putspRoutine a s.trapEntry)) s.readReg_trapEntry_zero

@[simp] theorem exec_halt (s : State) : exec .halt s = .next (haltRoutine s.trapEntry) := rfl

@[simp] theorem exec_trapUnrecognised (v : Vect) (s : State) : exec (.trapUnrecognised v) s = .next s.trapEntry := rfl

/-- A well-formed name and its core instruction have one meaning (30_encoding.md R74). -/
theorem exec_expand {i : Instr} (h : i.WellFormed = true) (s : State) : exec (expand i) s = exec i s := by
  cases i with
  | trapUnrecognised v =>
    have unrecognised : recognisedVect v = false := by simpa [Instr.WellFormed] using h
    rw [expand, exec_trap, exec_trapUnrecognised, trapDispatch_unrecognised unrecognised]
  | puts => exact congrArg Host.Outcome.next (trapDispatch_puts s.trapEntry)
  | putsp => exact congrArg Host.Outcome.next (trapDispatch_putsp s.trapEntry)
  | _ => rfl

/-- The closest name has the same meaning. -/
theorem exec_resolve {i : Instr} (h : i.WellFormed = true) (s : State) : exec (resolve i) s = exec i s := by
  rw [← exec_expand (resolve_wellFormed h), expand_resolve, exec_expand h]

theorem expand_wellFormed (i : Instr) : (expand i).WellFormed = true := by cases i <;> rfl

/-- Settles O2: a name runs as its core instruction, and that runs as its closest name. -/
theorem tableNamesRunAsTheirCoreInstruction : Obligations.TableNamesRunAsTheirCoreInstruction := by
  intro i s h
  exact ⟨exec_expand h s, (exec_resolve (expand_wellFormed i) s).trans (exec_expand h s)⟩

end Sys2Proof.Machine
end

section
/-! PROOFS. ADD and LEA, the branch and the calls (40_operate.md R80, R81; 42_load_store.md R104; 41_control.md R91 to R95). -/

namespace Sys2Proof.Machine

/-- Settles O13: each form writes the sum of its operands as an operate result, and the sum of two words wraps. -/
theorem addWritesTheSumModulo65536 : Obligations.AddWritesTheSumModulo65536 := by
  constructor
  · intro dr sr1 sr2 s
    exact ⟨_, _, exec_addReg dr sr1 sr2 s, BitVec.toNat_add _ _, s.writeRegCC_result dr _⟩
  · intro dr sr1 imm s
    exact ⟨_, _, exec_addImm dr sr1 imm s, BitVec.toNat_add _ _, s.writeRegCC_result dr _⟩

/-- Settles O16: LEA writes its address as an operate result, and the sum of the PC and the offset wraps. -/
theorem leaWritesTheAddressWithoutAnAccess : Obligations.LeaWritesTheAddressWithoutAnAccess := by
  intro dr off s
  exact ⟨_, _, exec_lea dr off s, BitVec.toNat_add _ _, s.writeRegCC_result dr _⟩

/-- Settles O10, over the three values of COND and the eight choices of requested bits. -/
theorem exactMatchIsTheBitwiseTestOnOneHotCond : Obligations.ExactMatchIsTheBitwiseTestOnOneHotCond := by
  have bitwise : ∀ n z p : Bool, ∀ c ∈ [Config.condP, Config.condZ, Config.condN],
      (brTaken n z p c = true ↔ (BitVec.ofBool n ++ BitVec.ofBool z ++ BitVec.ofBool p : BitVec 3) &&& c ≠ 0#3) := by
    decide
  intro n z p c oneHot
  exact bitwise n z p c (by simpa [CondOneHot] using oneHot)

/-- BR's test in the words of R91: a requested bit matches COND. -/
theorem brTaken_iff (n z p : Bool) (c : Cond) :
    brTaken n z p c = true ↔ (n = true ∧ c = 4#3) ∨ (z = true ∧ c = 2#3) ∨ (p = true ∧ c = 1#3) := by
  simp [brTaken, Config.condN, Config.condZ, Config.condP, or_assoc]

theorem State.onlyPC_self (s : State) : OnlyPC s.pc s s := s.jump_onlyPC s.pc

/-- Settles O27: a branch that is taken is a jump, one that is not leaves the state, and NOP's is never taken. -/
theorem brBranchesOnAMatchingCondition : Obligations.BrBranchesOnAMatchingCondition := by
  constructor
  · intro n z p off s
    refine ⟨_, exec_br n z p off s, fun taken => ?_, fun untaken => ?_⟩
    · rw [State.branch, if_pos ((brTaken_iff n z p s.cond).2 taken)]
      exact s.jump_onlyPC (s.pcRelative off)
    · rw [State.branch, if_neg (untaken ∘ (brTaken_iff n z p s.cond).1)]
      exact s.onlyPC_self
  · intro off s
    exact ⟨s, exec_nop off s, s.onlyPC_self⟩

/-- What the link both calls write leaves alone. -/
theorem State.link_jump_frame (s : State) (target : Word) :
    SameRegsExcept [7] s (s.link.jump target) ∧ (s.link.jump target).cond = s.cond ∧ SameMemory s (s.link.jump target) ∧
      SameConsole s (s.link.jump target) ∧ SameMode s (s.link.jump target) :=
  ⟨fun _ hr => s.readReg_link_ne (by simpa using hr), rfl, fun _ => rfl, ⟨⟨rfl, rfl, rfl⟩, rfl⟩, rfl, rfl⟩

/-- Settles O29: both calls link R7 and then jump, and JSRR reads its base after the link (D15). -/
theorem callsLinkR7AndJump : Obligations.CallsLinkR7AndJump := by
  constructor
  · intro off s
    exact ⟨_, exec_jsr off s, s.readReg_link_seven, rfl, s.link_jump_frame _⟩
  · intro base s
    refine ⟨_, exec_jsrr base s, s.readReg_link_seven, fun other => s.readReg_link_ne other, ?_, s.link_jump_frame _⟩
    rintro rfl
    exact s.readReg_link_seven

end Sys2Proof.Machine
end

section
/-! PROOFS. The loads and the stores (42_load_store.md R100 to R107; 20_memory.md R54, R57, R59). -/

namespace Sys2Proof.Machine

/-- Settles O17: both are the shared load at their address. -/
theorem ldAndLdrLoadTheWordAtTheirAddress : Obligations.LdAndLdrLoadTheWordAtTheirAddress :=
  ⟨fun dr off s => ⟨_, exec_ld dr off s, s.load_result dr _⟩,
    fun dr base off s => ⟨_, exec_ldr dr base off s, s.load_result dr _⟩⟩

/-- What the read of a pointer keeps, for the state that `readHook` names. -/
theorem State.readHook_keeps (s : State) (a : Word) : ReadKeeps s (s.readHook a) := s.memRead_keeps a

/-- Settles O18: the load is the shared one, from the state that the pointer's read leaves, and that read keeps the rest. -/
theorem ldiLoadsThroughThePointer : Obligations.LdiLoadsThroughThePointer := by
  intro dr off s h
  have pointer : ReadKeeps s h := s.readHook_keeps _
  have data := h.load_result dr (h.mem.read (s.pc + sext off))
  obtain ⟨run, phase⟩ := data.mode
  exact ⟨_, exec_ldi dr off s, data,
    fun r hr => (data.registers r hr).trans (State.readReg_congr pointer.regs r), data.pc.trans pointer.pc,
    data.output.trans pointer.output, run.trans pointer.run, phase.trans pointer.phase⟩

/-- A store from the state `h`, a part at a time. -/
theorem State.memWrite_stores (h : State) (a v : Word) :
    (h.memWrite a v).mem.read a = v ∧ SameMemoryExcept [a] h (h.memWrite a v) :=
  ⟨h.read_memWrite_same a v, fun b hb => h.read_memWrite_ne v (by simpa using hb)⟩

/-- Settles O20: each is one store at its address, and a store leaves the rest. -/
theorem stAndStrStoreAtTheirAddress : Obligations.StAndStrStoreAtTheirAddress := by
  intro sr base off9 off6 i s a store address
  have stores (b : Word) : (s.memWrite b (s.readReg sr)).mem.read b = s.readReg sr ∧
      SameMemoryExcept [b] s (s.memWrite b (s.readReg sr)) ∧ SameRegsExcept [] s (s.memWrite b (s.readReg sr)) ∧
      (s.memWrite b (s.readReg sr)).cond = s.cond ∧ (s.memWrite b (s.readReg sr)).pc = s.pc ∧
      SameConsole s (s.memWrite b (s.readReg sr)) ∧ SameMode s (s.memWrite b (s.readReg sr)) := by
    obtain ⟨regs, pc, cond, console, mode⟩ := s.memWrite_frame b (s.readReg sr)
    obtain ⟨own, others⟩ := s.memWrite_stores b (s.readReg sr)
    exact ⟨own, others, fun r _ => State.readReg_congr regs r, cond, pc, console, mode⟩
  rcases store with rfl | rfl <;> cases address
  · exact ⟨fun _ => rfl, nofun, _, exec_st sr off9 s, stores _⟩
  · exact ⟨nofun, fun _ => rfl, _, exec_str sr base off6 s, stores _⟩

/-- Settles O21: the store starts from the state that the pointer's read leaves, and that read keeps the rest. -/
theorem stiStoresThroughThePointer : Obligations.StiStoresThroughThePointer := by
  intro sr off s a address h
  cases address
  have pointer : ReadKeeps s h := s.readHook_keeps _
  obtain ⟨regs, pc, cond, ⟨input, output⟩, run, phase⟩ :=
    h.memWrite_frame (h.mem.read (s.pc + sext off)) (s.readReg sr)
  obtain ⟨own, others⟩ := h.memWrite_stores (h.mem.read (s.pc + sext off)) (s.readReg sr)
  exact ⟨rfl, _, exec_sti sr off s, own, others, input, output.trans pointer.output,
    fun r _ => State.readReg_congr (regs.trans pointer.regs) r, cond.trans pointer.cond, pc.trans pointer.pc,
    run.trans pointer.run, phase.trans pointer.phase⟩

theorem ReadKeeps.refl (s : State) : ReadKeeps s s :=
  ⟨rfl, rfl, rfl, rfl, rfl, rfl, id, fun _ _ => rfl, 0, [], by decide, .refl ⟨rfl, rfl, rfl⟩⟩

/-- Every store writes its register at its address, from a state that only a pointer's read has touched. -/
theorem exec_store {i : Instr} {s : State} {sr : Reg} {a : Word} (register : storedRegister i = some sr)
    (address : storeAddress s i = some a) :
    ∃ h, ReadKeeps s h ∧ exec i s = .next (h.memWrite a (s.readReg sr)) := by
  cases i with
  | st _ off =>
    cases register
    cases address
    exact ⟨s, .refl s, exec_st sr off s⟩
  | sti _ off =>
    cases register
    cases address
    exact ⟨_, s.memRead_keeps _, exec_sti sr off s⟩
  | str _ base off =>
    cases register
    cases address
    exact ⟨s, .refl s, exec_str sr base off s⟩
  | _ => cases register

/-- The word a pointer gives is no address of the keyboard's if the pointer itself is read at 0xFE00, since it is 0x8000 or 0
there (20_memory.md R44). -/
theorem State.pointer_at_kbsr (s : State) :
    (s.memRead Config.kbsr).1 ≠ Config.kbsr ∧ (s.memRead Config.kbsr).1 ≠ Config.kbdr := by
  rcases s.memRead_kbsr with h | h <;> rw [h] <;> decide

/-- The read of a pointer leaves the word it points at. -/
theorem State.read_pointer (s : State) (p : Word) :
    (s.memRead p).2.mem.read (s.memRead p).1 = s.mem.read (s.memRead p).1 := by
  by_cases h : p = Config.kbsr
  · subst h
    exact (s.memRead_keeps Config.kbsr).memory _ (by simpa using s.pointer_at_kbsr)
  · rw [s.memRead_ne h]

/-- Every load is the shared one at its address, from a state in which the word there is what it was. -/
theorem exec_load {j : Instr} {u : State} {dr : Reg} {a : Word} (address : loadsFrom u j = some (dr, a)) :
    ∃ h : State, h.mem.read a = u.mem.read a ∧ exec j u = .next (h.load dr a) := by
  cases j with
  | ld _ off =>
    cases address
    exact ⟨u, rfl, exec_ld dr off u⟩
  | ldr _ base off =>
    cases address
    exact ⟨u, rfl, exec_ldr dr base off u⟩
  | ldi _ off =>
    cases address
    exact ⟨_, u.read_pointer _, exec_ldi dr off u⟩
  | _ => cases address

/-- Settles O22: the store leaves its register at `a`, and a load from `a`, which is not 0xFE00, takes the word there. -/
theorem aLoadSeesTheLastStore : Obligations.ALoadSeesTheLastStore := by
  intro i j s u a sr dr register address loads elsewhere
  obtain ⟨h, -, store⟩ := exec_store register address
  refine ⟨_, store, fun stands => ?_⟩
  obtain ⟨k, word, load⟩ := exec_load loads
  refine ⟨_, load, ?_⟩
  rw [(k.load_result dr a).value, k.readHook_ne elsewhere, word, stands, State.read_memWrite_same]

/-- The fetch elsewhere than at 0xFE00 reads the word at the PC and only advances the PC (10_state.md R24). -/
theorem fetch_of_ne {s : State} (h : s.pc ≠ Config.kbsr) : fetch s = (s.mem.read s.pc, s.jump (s.pc + 1#16)) := by
  rw [fetch_eq, s.memRead_ne h]

/-- Settles O23: the store is at the PC, which it does not move, and the fetch of the next step reads the word there. -/
theorem aStoreIsSeenByTheNextFetch : Obligations.AStoreIsSeenByTheNextFetch := by
  intro i s sr run phase elsewhere register address
  obtain ⟨h, keeps, store⟩ := exec_store register address
  refine ⟨_, store, ?_⟩
  have running : (h.memWrite s.pc (s.readReg sr)).run = true := keeps.run.trans run
  have fetching : (h.memWrite s.pc (s.readReg sr)).phase = .fetch := keeps.phase.trans phase
  have pc : (h.memWrite s.pc (s.readReg sr)).pc = s.pc := keeps.pc
  have next : fetch (h.memWrite s.pc (s.readReg sr)) =
      (s.readReg sr, (h.memWrite s.pc (s.readReg sr)).jump (s.pc + 1#16)) := by
    rw [fetch_of_ne (pc ▸ elsewhere), pc, State.read_memWrite_same]
  rw [step_of_fetch running fetching, next]

end Sys2Proof.Machine
end

section
/-! PROOFS. The keyboard (20_memory.md R43 to R45; 42_load_store.md R108). -/

namespace Sys2Proof.Machine

/-- Settles O25: the hook's two cases, and what it keeps in both. -/
theorem theHookPollsTheKeyboard : Obligations.TheHookPollsTheKeyboard := by
  intro s
  have keeps := s.kbdHook_keeps
  refine ⟨fun c rest ready => ?_, fun idle => ?_, keeps.memory, keeps.regs, keeps.pc, keeps.cond, keeps.output,
    keeps.run, keeps.phase⟩
  · obtain ⟨status, data, looked⟩ := s.memRead_kbsr_ready ready
    rw [s.memRead_at_kbsr] at status data looked
    exact ⟨status, (congrArg BitVec.toNat data).trans (widen_toNat c), looked⟩
  · rw [State.kbdHook_none idle]
    exact ⟨State.read_memWrite_same _ _ _, State.read_memWrite_ne _ _ (by decide), rfl, rfl, rfl⟩

/-- Settles O26: the first LDR polls and the second reads the data word as the poll left it, its base still 0xFE00. -/
theorem pollThenReadYieldsTheCharacter : Obligations.PollThenReadYieldsTheCharacter := by
  intro dr base s status other
  have statusAddress : s.basePlus base 0#6 = Config.kbsr := by
    rw [State.basePlus, status]
    rfl
  have first := s.load_result dr Config.kbsr
  have dataAddress : (s.load dr Config.kbsr).basePlus base 2#6 = Config.kbdr := by
    rw [State.basePlus, first.registers base (by simpa using other.symm), status]
    rfl
  have second := (s.load dr Config.kbsr).load_result dr Config.kbdr
  refine ⟨s.load dr Config.kbsr, (s.load dr Config.kbsr).load dr Config.kbdr, statusAddress ▸ exec_ldr dr base 0#6 s,
    dataAddress ▸ exec_ldr dr base 2#6 (s.load dr Config.kbsr), ?_⟩
  obtain ⟨ready, idle, -⟩ := theHookPollsTheKeyboard s
  have value : (s.load dr Config.kbsr).readReg dr = s.kbdHook.mem.read Config.kbsr := by
    rw [first.value, s.readHook_kbsr]
  have cond : (s.load dr Config.kbsr).cond = condOf (s.kbdHook.mem.read Config.kbsr) := by
    rw [State.load, State.writeRegCC_cond, s.memRead_at_kbsr]
  have data : ((s.load dr Config.kbsr).load dr Config.kbdr).readReg dr = s.kbdHook.mem.read Config.kbdr := by
    rw [second.value, State.readHook_ne _ (by decide), first.memory, s.readHook_kbsr]
  constructor
  · intro c rest pending
    obtain ⟨hstatus, hdata, hlooked⟩ := ready c rest pending
    rw [value, cond, data]
    change s.kbdHook.mem.read Config.kbsr = _ at hstatus
    rw [hstatus]
    refine ⟨rfl, rfl, hdata, ?_⟩
    rw [second.input.1, State.readHook_ne _ (by decide), first.input.1, s.readHook_kbsr]
    exact hlooked.1
  · intro pending
    obtain ⟨hstatus, hdata, -⟩ := idle pending
    change s.kbdHook.mem.read Config.kbsr = _ at hstatus
    rw [value, cond, data, hstatus]
    exact ⟨rfl, rfl, hdata⟩

end Sys2Proof.Machine
end

section
/-! PROOFS. Trap entry and the routines: what each of them answers and keeps (43_trap.md R120 to R131). -/

namespace Sys2Proof.Machine

/-! ### Trap entry -/

/-- What trap entry leaves alone: all but R7 (60_exceptions.md R155). -/
theorem State.trapEntry_frame (s : State) :
    SameRegsExcept [7] s s.trapEntry ∧ s.trapEntry.pc = s.pc ∧ s.trapEntry.cond = s.cond ∧ SameMemory s s.trapEntry ∧
      SameConsole s s.trapEntry ∧ SameMode s s.trapEntry :=
  ⟨fun _ hr => s.readReg_trapEntry_ne (by simpa using hr), rfl, rfl, fun _ => rfl, ⟨⟨rfl, rfl, rfl⟩, rfl⟩, rfl, rfl⟩

/-- A routine that writes R0 at most and does not move the PC keeps the frame of every TRAP. -/
theorem TrapFrame.of_sameRegs {s t : State} (registers : SameRegsExcept [0] s.trapEntry t) (pc : t.pc = s.pc) :
    TrapFrame s t where
  link := (registers 7 (by decide)).trans s.readReg_trapEntry_seven
  pc := pc
  registers := fun r hr => by
    simp only [List.mem_cons, List.not_mem_nil, or_false, not_or] at hr
    exact (registers r (by simpa using hr.1)).trans (s.readReg_trapEntry_ne hr.2)

/-! ### The wait of GETC and IN -/

/-- The state after a look that leaves `rest` pending (10_state.md R35; log 3). -/
def State.looked (s : State) (rest : List Byte) : State := { s with kbq := rest, arrivals := s.arrivals.tail }

/-- A look takes what it takes from the front of what is pending. -/
theorem LookedAt.takes {s t : State} {taken rest : List Byte} (h : LookedAt rest s t) (pending : s.pending = taken ++ rest)
    (one : taken.length ≤ 1) : Takes 1 taken s t where
  order := by
    rw [h.1, ← pending, State.pending]
    simp [coming]
  arrivals := by rw [h.2.1, List.drop_one]
  refill := h.2.2
  oneALook := one

/-- Which characters are taken is seen in the input only. -/
theorem Takes.congr {n : Nat} {taken : List Byte} {s t s' t' : State} (h : Takes n taken s t) (hs : SameInput s s')
    (ht : SameInput t t') : Takes n taken s' t' where
  order := by rw [hs.1, hs.2.1, hs.2.2, h.order, ht.1]
  arrivals := by rw [ht.2.1, h.arrivals, hs.2.1]
  refill := by rw [ht.2.2, h.refill, hs.2.2]
  oneALook := h.oneALook

theorem getcRoutine_ready {s : State} {c : Byte} {rest : List Byte} (h : s.pending = c :: rest) :
    getcRoutine s = (s.looked rest).takeChar c := by
  simp only [getcRoutine, State.poll_ready h]
  rfl

theorem getcRoutine_idle {s : State} (h : s.pending = []) : getcRoutine s = { s.looked [] with phase := .waitGetc } := by
  simp only [getcRoutine, State.poll_none h]
  rfl

theorem inRoutine_ready {s : State} {c : Byte} {rest : List Byte} (h : s.pending = c :: rest) :
    inRoutine s = (((s.looked rest).emit [c]).flush).takeChar c := by
  simp only [inRoutine, State.poll_ready h]
  rfl

theorem inRoutine_idle {s : State} (h : s.pending = []) : inRoutine s = { s.looked [] with phase := .waitIn } := by
  simp only [inRoutine, State.poll_none h]
  rfl

theorem State.readReg_takeChar_ne (s : State) (c : Byte) {r : Reg} (h : r ≠ 0) : (s.takeChar c).readReg r = s.readReg r :=
  s.readReg_writeReg_ne (widen c) h

/-- COND once the instruction is over is the condition of `r`'s value, and what it was while the instruction goes on. -/
def CondSet (r : Reg) (s t : State) : Prop :=
  (t.phase = .fetch → CondFor (t.readReg r) t.cond) ∧ (t.phase ≠ .fetch → t.cond = s.cond)

/-- What GETC and IN keep from their wait point on, whether a character is pending or not (43_trap.md R122). -/
structure WaitKeeps (s t : State) : Prop where
  registers : SameRegsExcept [0] s t
  pc : t.pc = s.pc
  run : t.run = s.run
  mem : t.mem = s.mem
  cond : CondSet 0 s t
  output : s.output <+: t.output
  input : ∃ taken, Takes 1 taken s t

theorem State.takeChar_condFor (s : State) (c : Byte) : CondFor ((s.takeChar c).readReg 0) (s.takeChar c).cond := by
  rw [State.readReg_takeChar_zero, State.takeChar_cond]
  exact condFor_condOf (widen c)

/-- Taking the character pending keeps what a wait keeps, whatever has been emitted before it is in R0. -/
theorem WaitKeeps.of_takeChar {s u : State} {c : Byte} {rest : List Byte} (h : s.pending = c :: rest)
    (hu : { u with output := s.output } = s.looked rest) (output : s.output <+: u.output) :
    WaitKeeps s (u.takeChar c) := by
  have fields {α : Type} (f : State → α) := congrArg f hu
  exact {
    registers := fun r hr => (u.readReg_takeChar_ne c (by simpa using hr)).trans (State.readReg_congr (fields State.regs) r)
    pc := fields State.pc
    run := fields State.run
    mem := fields State.mem
    cond := ⟨fun _ => u.takeChar_condFor c, fun going => absurd rfl going⟩
    output := output
    input := ⟨[c], LookedAt.takes ⟨fields State.kbq, fields State.arrivals, fields State.refill⟩ h le_rfl⟩ }

/-- A look that finds nothing keeps what a wait keeps, in either waiting phase. -/
theorem WaitKeeps.of_idle {s : State} {wait : Phase} (h : s.pending = []) (going : wait ≠ .fetch) :
    WaitKeeps s { s.looked [] with phase := wait } where
  registers := fun _ _ => rfl
  pc := rfl
  run := rfl
  mem := rfl
  cond := ⟨fun finished => absurd finished going, fun _ => rfl⟩
  output := List.prefix_rfl
  input := ⟨[], LookedAt.takes ⟨rfl, rfl, rfl⟩ h (by decide)⟩

theorem getcRoutine_keeps (s : State) : WaitKeeps s (getcRoutine s) := by
  cases h : s.pending with
  | nil => exact getcRoutine_idle h ▸ .of_idle h nofun
  | cons c rest => exact getcRoutine_ready h ▸ .of_takeChar h rfl List.prefix_rfl

theorem inRoutine_keeps (s : State) : WaitKeeps s (inRoutine s) := by
  cases h : s.pending with
  | nil => exact inRoutine_idle h ▸ .of_idle h nofun
  | cons c rest =>
    refine inRoutine_ready h ▸ .of_takeChar h rfl ?_
    exact (List.prefix_append _ [ConsoleEvent.out c]).trans (List.prefix_append _ [ConsoleEvent.flush])

/-- GETC emits nothing: no echo (43_trap.md R123). -/
@[simp] theorem getcRoutine_output (s : State) : (getcRoutine s).output = s.output := by
  cases h : s.pending with
  | nil => rw [getcRoutine_idle h]; rfl
  | cons c rest => rw [getcRoutine_ready h]; rfl

/-- IN's prompt comes before its wait point and changes the output only (43_trap.md R126). -/
theorem inPromptRoutine_keeps (s : State) : WaitKeeps s (inPromptRoutine s) := by
  obtain ⟨registers, pc, run, mem, cond, output, input⟩ := inRoutine_keeps (s.emit Config.inPrompt)
  exact ⟨registers, pc, run, mem, cond, (List.prefix_append _ _).trans output,
    input.imp fun _ takes => takes.congr ⟨rfl, rfl, rfl⟩ ⟨rfl, rfl, rfl⟩⟩

/-! ### PUTS and PUTSP -/

/-- What printing keeps, whether the string ends or not (43_trap.md R125, R127). -/
structure PrintKeeps (s t : State) : Prop where
  regs : t.regs = s.regs
  pc : t.pc = s.pc
  cond : t.cond = s.cond
  run : t.run = s.run
  output : s.output <+: t.output
  wf : s.mem.wf → t.mem.wf
  memory : SameMemoryExcept [Config.kbsr, Config.kbdr] s t
  input : ∃ looks taken, Takes looks taken s t

/-- A scan's state with more output, in any phase. -/
theorem PrintKeeps.of_scan {s u t : State} (h : ScanKeeps s u) (same : { t with output := u.output, phase := u.phase } = u)
    (more : u.output <+: t.output) : PrintKeeps s t := by
  have fields {α : Type} (f : State → α) := congrArg f same
  obtain ⟨bs, output⟩ := h.output
  obtain ⟨looks, taken, takes⟩ := h.input
  have input : SameInput u t := ⟨fields State.kbq, fields State.arrivals, fields State.refill⟩
  exact {
    regs := (fields State.regs).trans h.regs
    pc := (fields State.pc).trans h.pc
    cond := (fields State.cond).trans h.cond
    run := (fields State.run).trans h.run
    output := (output ▸ List.prefix_append _ _ : s.output <+: u.output).trans more
    wf := fun w => (fields State.mem : t.mem = u.mem) ▸ h.wf w
    memory := fun a ha => (fields fun v => v.mem.read a).trans (h.memory a ha)
    input := ⟨looks, taken, takes.congr ⟨rfl, rfl, rfl⟩ input⟩ }

theorem State.print_keeps (s : State) (chars : Word → List Byte) (more : Phase) (a : Word) :
    PrintKeeps s (s.print chars more a) := by
  obtain ⟨u, scanned, print | print⟩ : ∃ u, ScanKeeps s u ∧ (s.print chars more a = { u.flush with phase := .fetch } ∨
      s.print chars more a = { u with phase := more }) :=
    ⟨_, scan_keeps chars s.scanLimit a s, (s.print_cases chars more a).imp And.right And.right⟩ <;> rw [print]
  · exact .of_scan scanned rfl (List.prefix_append _ _)
  · exact .of_scan scanned rfl List.prefix_rfl

/-! ### What every TRAP keeps -/

theorem TrapFrame.of_wait {s t : State} (h : WaitKeeps s.trapEntry t) : TrapFrame s t := .of_sameRegs h.registers h.pc

theorem TrapFrame.of_print {s t : State} (h : PrintKeeps s.trapEntry t) : TrapFrame s t := .of_trapEntry h.regs h.pc

/-- Every TRAP is one of the rows that name it (30_encoding.md R75). -/
theorem exists_name_of_trap (v : Vect) :
    ∃ i : Instr, i.WellFormed = true ∧ expand i = .trap v ∧ ∀ w, i ≠ .trap w := by
  rcases vect_cases v with h | rfl | rfl | rfl | rfl | rfl | rfl
  · exact ⟨.trapUnrecognised v, by simp [Instr.WellFormed, h], rfl, nofun⟩
  · exact ⟨.getc, rfl, rfl, nofun⟩
  · exact ⟨.out, rfl, rfl, nofun⟩
  · exact ⟨.puts, rfl, rfl, nofun⟩
  · exact ⟨.inChar, rfl, rfl, nofun⟩
  · exact ⟨.putsp, rfl, rfl, nofun⟩
  · exact ⟨.halt, rfl, rfl, nofun⟩

end Sys2Proof.Machine
end

section
/-! PROOFS. The statements on trap entry, GETC, IN, HALT and unrecognised vectors (43_trap.md R120 to R130). -/

namespace Sys2Proof.Machine

theorem haltRoutine_trapFrame (s : State) : TrapFrame s (haltRoutine s.trapEntry) := .of_trapEntry rfl rfl

/-- Every row that names a TRAP answers a state with the frame of every TRAP. -/
theorem exec_trapName {i : Instr} (name : ∀ v, i ≠ .trap v) (trap : isTrap i = true) (s : State) :
    ∃ t, exec i s = .next t ∧ TrapFrame s t := by
  cases i with
  | trap v => exact absurd rfl (name v)
  | getc => exact ⟨_, exec_getc s, .of_wait (getcRoutine_keeps _)⟩
  | out => exact ⟨_, exec_out s, .of_trapEntry rfl rfl⟩
  | puts => exact ⟨_, exec_puts s, .of_print (State.print_keeps _ _ _ _)⟩
  | inChar => exact ⟨_, exec_inChar s, .of_wait (inPromptRoutine_keeps _)⟩
  | putsp => exact ⟨_, exec_putsp s, .of_print (State.print_keeps _ _ _ _)⟩
  | halt => exact ⟨_, exec_halt s, haltRoutine_trapFrame s⟩
  | trapUnrecognised v => exact ⟨_, exec_trapUnrecognised v s, .of_trapEntry rfl rfl⟩
  | _ => cases trap

theorem isTrap_expand (i : Instr) : isTrap (expand i) = isTrap i := by cases i <;> rfl

/-- Every TRAP answers a state with the frame of every TRAP: under its name it does the same. -/
theorem exec_trap_frame {i : Instr} (trap : isTrap i = true) (s : State) : ∃ t, exec i s = .next t ∧ TrapFrame s t := by
  by_cases h : ∃ v, i = .trap v
  · obtain ⟨v, rfl⟩ := h
    obtain ⟨j, wellFormed, core, name⟩ := exists_name_of_trap v
    rw [← core, exec_expand wellFormed]
    exact exec_trapName name (by rw [← isTrap_expand, core]; rfl) s
  · exact exec_trapName (fun v hv => h ⟨v, hv⟩) trap s

/-- Settles O31: trap entry's own frame, and that every routine keeps R7, the PC and R1 to R6 as trap entry left them. -/
theorem trapEntrySavesOnlyThePC : Obligations.TrapEntrySavesOnlyThePC :=
  ⟨fun s => ⟨s.readReg_trapEntry_seven, s.trapEntry_frame⟩, fun _ s trap => exec_trap_frame trap s⟩

/-- A vector outside 0x20 to 0x25 names no routine. -/
theorem unrecognised_of_range {v : Vect} (h : v.toNat < 0x20 ∨ 0x25 < v.toNat) : recognisedVect v = false := by
  rcases vect_cases v with hv | rfl | rfl | rfl | rfl | rfl | rfl
  · exact hv
  all_goals exact absurd h (by decide)

/-- Settles O32: a TRAP is what its name is, every TRAP keeps the frame, and an unrecognised vector stops after trap entry. -/
theorem trapDispatchesOnItsVector : Obligations.TrapDispatchesOnItsVector := by
  intro v s
  obtain ⟨t, run, frame⟩ := exec_trap_frame (i := .trap v) rfl s
  refine ⟨t, run, frame.link, frame.pc, ?_, ?_, ?_, ?_, ?_, ?_, fun range => ?_⟩
  · rintro rfl; exact (exec_expand (i := .getc) rfl s).symm.trans run
  · rintro rfl; exact (exec_expand (i := .out) rfl s).symm.trans run
  · rintro rfl; exact (exec_expand (i := .puts) rfl s).symm.trans run
  · rintro rfl; exact (exec_expand (i := .inChar) rfl s).symm.trans run
  · rintro rfl; exact (exec_expand (i := .putsp) rfl s).symm.trans run
  · rintro rfl; exact (exec_expand (i := .halt) rfl s).symm.trans run
  · rw [exec_trap, trapDispatch_unrecognised (unrecognised_of_range range)] at run
    cases run
    obtain ⟨registers, -, rest⟩ := s.trapEntry_frame
    exact ⟨registers, rest⟩

/-- Settles O44: the row's meaning is trap entry alone. -/
theorem unrecognisedVectorsOnlyWriteR7 : Obligations.UnrecognisedVectorsOnlyWriteR7 :=
  fun v s => ⟨_, exec_trapUnrecognised v s, s.readReg_trapEntry_seven, s.trapEntry_frame⟩

/-- Settles O43: after trap entry the routine writes the output and RUN only. -/
theorem haltClearsRunAfterItsNotice : Obligations.HaltClearsRunAfterItsNotice := by
  intro s
  have output : (haltRoutine s.trapEntry).output = s.output ++ Config.haltNotice.map .out ++ [.flush] := by
    simp [haltRoutine]
  exact ⟨_, exec_halt s, rfl, output, haltRoutine_trapFrame s, s.readReg_trapEntry_zero, rfl, fun _ => rfl,
    ⟨rfl, rfl, rfl⟩, rfl⟩

theorem State.toNat_readReg_takeChar (s : State) (c : Byte) : ((s.takeChar c).readReg 0).toNat = c.toNat := by
  rw [State.readReg_takeChar_zero, widen_toNat]

/-- Settles O33: GETC takes the character from the state after trap entry, which has the same characters pending. -/
theorem getcTakesThePendingCharacter : Obligations.GetcTakesThePendingCharacter := by
  intro s c rest phase pending
  have routine : getcRoutine s.trapEntry = (s.trapEntry.looked rest).takeChar c := getcRoutine_ready pending
  have frame : TrapFrame s ((s.trapEntry.looked rest).takeChar c) := routine ▸ .of_wait (getcRoutine_keeps _)
  exact ⟨_, routine ▸ exec_getc s, State.toNat_readReg_takeChar _ c, State.takeChar_condFor _ c, frame,
    ⟨rfl, rfl, rfl⟩, rfl, fun _ => rfl, rfl, phase.symm⟩

/-- Settles O34: IN does as GETC from the state with the prompt emitted, with one echo and a flush before it takes over. -/
theorem inPromptsAndEchoes : Obligations.InPromptsAndEchoes := by
  intro s c rest phase pending
  have routine : inPromptRoutine s.trapEntry =
      ((((s.trapEntry.emit Config.inPrompt).looked rest).emit [c]).flush).takeChar c := inRoutine_ready pending
  have frame := TrapFrame.of_wait (inPromptRoutine_keeps s.trapEntry)
  rw [routine] at frame
  refine ⟨_, routine ▸ exec_inChar s, State.toNat_readReg_takeChar _ c, State.takeChar_condFor _ c, frame,
    ⟨rfl, rfl, rfl⟩, ?_, fun _ => rfl, rfl, phase.symm⟩
  simp [State.looked]

theorem step_of_waitGetc {s : State} (run : s.run = true) (phase : s.phase = .waitGetc) :
    step s = .next (getcRoutine s) := by
  simp [step, run, phase]

theorem step_of_waitIn {s : State} (run : s.run = true) (phase : s.phase = .waitIn) : step s = .next (inRoutine s) := by
  simp [step, run, phase]

/-- With nothing pending a look changes `arrivals` only. -/
theorem State.looked_nil {s : State} (h : s.pending = []) : s.looked [] = { s with arrivals := s.arrivals.tail } := by
  have kbq : s.kbq = [] := (List.append_eq_nil_iff.1 h).1
  rw [State.looked, ← kbq]

/-- GETC waits after trap entry. -/
theorem exec_getc_idle {s : State} (pending : s.pending = []) :
    exec .getc s = .next { s.trapEntry.looked [] with phase := .waitGetc } :=
  congrArg Host.Outcome.next (getcRoutine_idle (s := s.trapEntry) pending)

/-- IN waits after trap entry and the prompt. -/
theorem exec_inChar_idle {s : State} (pending : s.pending = []) :
    exec .inChar s = .next { (s.trapEntry.emit Config.inPrompt).looked [] with phase := .waitIn } :=
  congrArg Host.Outcome.next (inRoutine_idle (s := s.trapEntry.emit Config.inPrompt) pending)

/-- A waiting step with nothing pending changes `arrivals` only (43_trap.md R122; log 4). -/
theorem step_of_waiting_idle {s : State} (run : s.run = true) (waits : s.phase = .waitGetc ∨ s.phase = .waitIn)
    (pending : s.pending = []) : step s = .next { s with arrivals := s.arrivals.tail } := by
  rcases waits with phase | phase
  · rw [step_of_waitGetc run phase, getcRoutine_idle pending, State.looked_nil pending, ← phase]
  · rw [step_of_waitIn run phase, inRoutine_idle pending, State.looked_nil pending, ← phase]

/-- Settles O35: the wait after trap entry and, for IN, after the prompt, and the waiting steps, idle and ready. -/
theorem getcAndInWaitForACharacter : Obligations.GetcAndInWaitForACharacter := by
  constructor
  · intro s pending
    constructor
    · have frame : TrapFrame s { s.trapEntry.looked [] with phase := .waitGetc } :=
        getcRoutine_idle (s := s.trapEntry) pending ▸ .of_wait (getcRoutine_keeps s.trapEntry)
      exact ⟨_, exec_getc_idle pending, rfl, frame, s.readReg_trapEntry_zero, rfl, rfl, fun _ => rfl, ⟨rfl, rfl, rfl⟩, rfl⟩
    · have frame : TrapFrame s { (s.trapEntry.emit Config.inPrompt).looked [] with phase := .waitIn } :=
        inRoutine_idle (s := s.trapEntry.emit Config.inPrompt) pending ▸ .of_wait (inPromptRoutine_keeps s.trapEntry)
      exact ⟨_, exec_inChar_idle pending, rfl, frame, s.readReg_trapEntry_zero, rfl, rfl, fun _ => rfl, ⟨rfl, rfl, rfl⟩, rfl⟩
  · intro s run waits
    refine ⟨step_of_waiting_idle run waits, fun c rest pending => ?_⟩
    rcases waits with phase | phase
    · have keeps := getcRoutine_ready pending ▸ getcRoutine_keeps s
      have next : step s = .next ((s.looked rest).takeChar c) := getcRoutine_ready pending ▸ step_of_waitGetc run phase
      exact ⟨_, next, rfl, State.toNat_readReg_takeChar _ c, State.takeChar_condFor _ c, keeps.registers, rfl, ⟨rfl, rfl, rfl⟩,
        fun _ => rfl, run, fun _ => rfl, fun other => (nomatch phase.symm.trans other)⟩
    · have keeps := inRoutine_ready pending ▸ inRoutine_keeps s
      have next : step s = .next ((((s.looked rest).emit [c]).flush).takeChar c) :=
        inRoutine_ready pending ▸ step_of_waitIn run phase
      exact ⟨_, next, rfl, State.toNat_readReg_takeChar _ c, State.takeChar_condFor _ c, keeps.registers, rfl, ⟨rfl, rfl, rfl⟩,
        fun _ => rfl, run, fun other => (nomatch phase.symm.trans other), fun _ => by simp [State.looked]⟩

end Sys2Proof.Machine
end

section
/-! PROOFS. What an instruction can do, all of it at once, and the statements on frames that follow from it
(10_state.md R22, R25, R29, R30, R33, R35). -/

namespace Sys2Proof.Machine

/-- What every instruction keeps and what it may change: the registers it names, the PC, COND, RUN, the output, memory and
the input, under the classes the statements speak of. -/
structure InstrKeeps (i : Instr) (s t : State) : Prop where
  registers : SameRegsExcept (destinations i) s t
  pc : redirects s.cond i = false → t.pc = s.pc
  condKept : condRegister i = none → t.cond = s.cond
  condSet : ∀ r, condRegister i = some r → s.phase = .fetch → CondSet r s t
  run : halts i = false → t.run = s.run
  halted : halts i = true → t.run = false ∧ t.phase = s.phase
  output : s.output <+: t.output
  quiet : emits i = false → t.output = s.output
  wf : s.mem.wf → t.mem.wf
  memory : ∀ a, a ∉ [Config.kbsr, Config.kbdr] → storeAddress s i ≠ some a → t.mem.read a = s.mem.read a
  trapMemory : isTrap i = true → readsString i = false → t.mem = s.mem
  input : ∃ looks taken, Takes looks taken s t ∧ (readsString i = false → looks ≤ 1)

/-! ### Instructions that are no TRAP -/

/-- One register and COND written after reads at most (the operate instructions, LEA and the loads). -/
theorem InstrKeeps.of_writeRegCC {i : Instr} {s u : State} {dr : Reg} (read : ReadKeeps s u) (v : Word)
    (dest : destinations i = [dr]) (cond : condRegister i = some dr) (trap : isTrap i = false) (halt : halts i = false) :
    InstrKeeps i s (u.writeRegCC dr v) where
  registers := fun r hr => by
    rw [dest] at hr
    exact (u.readReg_writeRegCC_ne v (by simpa using hr)).trans (State.readReg_congr read.regs r)
  pc := fun _ => read.pc
  condKept := fun h => (nomatch cond.symm.trans h)
  condSet := fun r hr phase => by
    rw [cond] at hr
    cases hr
    exact ⟨fun _ => (u.writeRegCC_result dr v).value.symm ▸ (u.writeRegCC_result dr v).cond,
      fun going => absurd (read.phase.trans phase) going⟩
  run := fun _ => read.run
  halted := fun h => (nomatch halt.symm.trans h)
  output := read.output ▸ List.prefix_rfl
  quiet := fun _ => read.output
  wf := read.wf
  memory := fun a ha _ => read.memory a ha
  trapMemory := fun h => (nomatch trap.symm.trans h)
  input := by
    obtain ⟨looks, taken, one, takes⟩ := read.input
    exact ⟨looks, taken, takes.congr ⟨rfl, rfl, rfl⟩ ⟨rfl, rfl, rfl⟩, fun _ => one⟩

/-- A store after reads at most. -/
theorem InstrKeeps.of_memWrite {i : Instr} {s u : State} {a : Word} (read : ReadKeeps s u) (v : Word)
    (address : storeAddress s i = some a) (cond : condRegister i = none) (trap : isTrap i = false) (halt : halts i = false) :
    InstrKeeps i s (u.memWrite a v) where
  registers := fun r _ => State.readReg_congr read.regs r
  pc := fun _ => read.pc
  condKept := fun _ => read.cond
  condSet := fun r hr => (nomatch cond.symm.trans hr)
  run := fun _ => read.run
  halted := fun h => (nomatch halt.symm.trans h)
  output := read.output ▸ List.prefix_rfl
  quiet := fun _ => read.output
  wf := fun h => u.wf_memWrite a v (read.wf h)
  memory := fun b hb other => by
    have ne : b ≠ a := fun e => other (e ▸ address)
    rw [u.read_memWrite_ne v ne, read.memory b hb]
  trapMemory := fun h => (nomatch trap.symm.trans h)
  input := by
    obtain ⟨looks, taken, one, takes⟩ := read.input
    exact ⟨looks, taken, takes.congr ⟨rfl, rfl, rfl⟩ ⟨rfl, rfl, rfl⟩, fun _ => one⟩

/-- Nothing but the PC and R7 written (the control instructions and the reserved opcodes). -/
theorem InstrKeeps.of_control {i : Instr} {s t : State} (registers : SameRegsExcept (destinations i) s t)
    (pc : redirects s.cond i = false → t.pc = s.pc) (same : { t with regs := s.regs, pc := s.pc } = s)
    (cond : condRegister i = none) (trap : isTrap i = false) (halt : halts i = false) : InstrKeeps i s t := by
  have fields {α : Type} (f : State → α) := congrArg f same
  exact {
    registers := registers
    pc := pc
    condKept := fun _ => fields State.cond
    condSet := fun r hr => (nomatch cond.symm.trans hr)
    run := fun _ => fields State.run
    halted := fun h => (nomatch halt.symm.trans h)
    output := (fields State.output : t.output = s.output) ▸ List.prefix_rfl
    quiet := fun _ => fields State.output
    wf := (fields State.mem : t.mem = s.mem) ▸ id
    memory := fun a _ _ => fields (fun u => u.mem.read a)
    trapMemory := fun h => (nomatch trap.symm.trans h)
    input := ⟨0, [], .refl ⟨fields State.kbq, fields State.arrivals, fields State.refill⟩, fun _ => by decide⟩ }

/-- The read of a pointer and the read at it look at the input once at most: where the pointer is read at 0xFE00, it does not
point there. -/
theorem State.memRead_pointer_keeps (s : State) (p : Word) :
    ReadKeeps s ((s.memRead p).2.memRead (s.memRead p).1).2 := by
  by_cases h : p = Config.kbsr
  · subst h
    rw [State.memRead_ne _ s.pointer_at_kbsr.1]
    exact s.memRead_keeps Config.kbsr
  · rw [s.memRead_ne h]
    exact s.memRead_keeps _

/-! ### TRAPs -/

/-- GETC and IN after trap entry. -/
theorem InstrKeeps.of_wait {i : Instr} {s t : State} (wait : WaitKeeps s.trapEntry t) (dest : destinations i = [0, 7])
    (cond : condRegister i = some 0) (halt : halts i = false) (quiet : emits i = false → t.output = s.output) :
    InstrKeeps i s t where
  registers := dest ▸ (TrapFrame.of_wait wait).registers
  pc := fun _ => wait.pc
  condKept := fun h => (nomatch cond.symm.trans h)
  condSet := fun r hr _ => by
    rw [cond] at hr
    cases hr
    exact wait.cond
  run := fun _ => wait.run
  halted := fun h => (nomatch halt.symm.trans h)
  output := wait.output
  quiet := quiet
  wf := wait.mem ▸ id
  memory := fun a _ _ => congrArg (·.read a) wait.mem
  trapMemory := fun _ _ => wait.mem
  input := by
    obtain ⟨taken, takes⟩ := wait.input
    exact ⟨1, taken, takes.congr ⟨rfl, rfl, rfl⟩ ⟨rfl, rfl, rfl⟩, fun _ => le_rfl⟩

/-- A routine that writes no register leaves R0 to R6. -/
theorem sameRegs_of_trapEntry {s t : State} (regs : t.regs = s.trapEntry.regs) : SameRegsExcept [7] s t := fun r hr =>
  (State.readReg_congr regs r).trans (s.readReg_trapEntry_ne (by simpa using hr))

/-- PUTS and PUTSP after trap entry. -/
theorem InstrKeeps.of_print {i : Instr} {s t : State} (print : PrintKeeps s.trapEntry t) (dest : destinations i = [7])
    (cond : condRegister i = none) (halt : halts i = false) (emit : emits i = true) (string : readsString i = true) :
    InstrKeeps i s t where
  registers := dest ▸ sameRegs_of_trapEntry print.regs
  pc := fun _ => print.pc
  condKept := fun _ => print.cond
  condSet := fun r hr => (nomatch cond.symm.trans hr)
  run := fun _ => print.run
  halted := fun h => (nomatch halt.symm.trans h)
  output := print.output
  quiet := fun h => (nomatch emit.symm.trans h)
  wf := print.wf
  memory := fun a ha _ => print.memory a ha
  trapMemory := fun _ h => by rw [string] at h; cases h
  input := by
    obtain ⟨looks, taken, takes⟩ := print.input
    exact ⟨looks, taken, takes.congr ⟨rfl, rfl, rfl⟩ ⟨rfl, rfl, rfl⟩, fun h => (nomatch string.symm.trans h)⟩

/-- What a TRAP that touches neither memory, the input nor COND keeps (OUT, HALT and an unrecognised vector). -/
theorem InstrKeeps.of_trapEntry {i : Instr} {s t : State} (same : { t with output := s.output, run := s.run } = s.trapEntry)
    (dest : destinations i = [7]) (cond : condRegister i = none) (output : s.output <+: t.output)
    (quiet : emits i = false → t.output = s.output) (run : halts i = false → t.run = s.run)
    (halted : halts i = true → t.run = false) : InstrKeeps i s t := by
  have fields {α : Type} (f : State → α) := congrArg f same
  exact {
    registers := dest ▸ sameRegs_of_trapEntry (fields State.regs)
    pc := fun _ => fields State.pc
    condKept := fun _ => fields State.cond
    condSet := fun r hr => (nomatch cond.symm.trans hr)
    run := run
    halted := fun h => ⟨halted h, fields State.phase⟩
    output := output
    quiet := quiet
    wf := (fields State.mem : t.mem = s.mem) ▸ id
    memory := fun a _ _ => fields (fun u => u.mem.read a)
    trapMemory := fun _ _ => fields State.mem
    input := ⟨0, [], .refl ⟨fields State.kbq, fields State.arrivals, fields State.refill⟩, fun _ => by decide⟩ }

/-- Every instruction but TRAP itself keeps what it should: one case an instruction, by what it is made of. -/
theorem exec_keeps_of_ne_trap {i : Instr} (name : ∀ v, i ≠ .trap v) (s : State) :
    ∃ t, exec i s = .next t ∧ InstrKeeps i s t := by
  cases i with
  | trap v => exact absurd rfl (name v)
  | br n z p off =>
    refine ⟨_, exec_br n z p off s, .of_control (fun r _ => ?_) (fun untaken => ?_) ?_ rfl rfl rfl⟩ <;>
      rw [State.branch]
    · split <;> rfl
    · exact congrArg State.pc (if_neg (Bool.eq_false_iff.1 untaken))
    · split <;> rfl
  | nop off => exact ⟨s, exec_nop off s, .of_control (fun _ _ => rfl) (fun _ => rfl) rfl rfl rfl rfl⟩
  | rti => exact ⟨s, exec_rti s, .of_control (fun _ _ => rfl) (fun _ => rfl) rfl rfl rfl rfl⟩
  | res => exact ⟨s, exec_res s, .of_control (fun _ _ => rfl) (fun _ => rfl) rfl rfl rfl rfl⟩
  | jmp base => exact ⟨_, exec_jmp base s, .of_control (fun _ _ => rfl) nofun rfl rfl rfl rfl⟩
  | ret => exact ⟨_, exec_ret s, .of_control (fun _ _ => rfl) nofun rfl rfl rfl rfl⟩
  | jsr off => exact ⟨_, exec_jsr off s, .of_control (s.link_jump_frame _).1 nofun rfl rfl rfl rfl⟩
  | jsrr base => exact ⟨_, exec_jsrr base s, .of_control (s.link_jump_frame _).1 nofun rfl rfl rfl rfl⟩
  | addReg dr sr1 sr2 => exact ⟨_, exec_addReg dr sr1 sr2 s, .of_writeRegCC (.refl s) _ rfl rfl rfl rfl⟩
  | addImm dr sr1 imm => exact ⟨_, exec_addImm dr sr1 imm s, .of_writeRegCC (.refl s) _ rfl rfl rfl rfl⟩
  | andReg dr sr1 sr2 => exact ⟨_, exec_andReg dr sr1 sr2 s, .of_writeRegCC (.refl s) _ rfl rfl rfl rfl⟩
  | andImm dr sr1 imm => exact ⟨_, exec_andImm dr sr1 imm s, .of_writeRegCC (.refl s) _ rfl rfl rfl rfl⟩
  | notReg dr sr => exact ⟨_, exec_notReg dr sr s, .of_writeRegCC (.refl s) _ rfl rfl rfl rfl⟩
  | lea dr off => exact ⟨_, exec_lea dr off s, .of_writeRegCC (.refl s) _ rfl rfl rfl rfl⟩
  | ld dr off => exact ⟨_, exec_ld dr off s, .of_writeRegCC (s.memRead_keeps _) _ rfl rfl rfl rfl⟩
  | ldr dr base off => exact ⟨_, exec_ldr dr base off s, .of_writeRegCC (s.memRead_keeps _) _ rfl rfl rfl rfl⟩
  | ldi dr off => exact ⟨_, exec_ldi dr off s, .of_writeRegCC (s.memRead_pointer_keeps _) _ rfl rfl rfl rfl⟩
  | st sr off => exact ⟨_, exec_st sr off s, .of_memWrite (.refl s) _ rfl rfl rfl rfl⟩
  | str sr base off => exact ⟨_, exec_str sr base off s, .of_memWrite (.refl s) _ rfl rfl rfl rfl⟩
  | sti sr off => exact ⟨_, exec_sti sr off s, .of_memWrite (s.memRead_keeps _) _ rfl rfl rfl rfl⟩
  | getc => exact ⟨_, exec_getc s, .of_wait (getcRoutine_keeps _) rfl rfl rfl fun _ => getcRoutine_output _⟩
  | inChar => exact ⟨_, exec_inChar s, .of_wait (inPromptRoutine_keeps _) rfl rfl rfl nofun⟩
  | puts => exact ⟨_, exec_puts s, .of_print (State.print_keeps _ _ _ _) rfl rfl rfl rfl rfl⟩
  | putsp => exact ⟨_, exec_putsp s, .of_print (State.print_keeps _ _ _ _) rfl rfl rfl rfl rfl⟩
  | out =>
    have output : s.output <+: (outRoutine s.trapEntry).output := by simp
    exact ⟨_, exec_out s, .of_trapEntry rfl rfl rfl output nofun (fun _ => rfl) nofun⟩
  | halt =>
    have output : s.output <+: (haltRoutine s.trapEntry).output := by simp [haltRoutine]
    exact ⟨_, exec_halt s, .of_trapEntry rfl rfl rfl output nofun nofun fun _ => rfl⟩
  | trapUnrecognised v =>
    exact ⟨_, exec_trapUnrecognised v s, .of_trapEntry rfl rfl rfl List.prefix_rfl (fun _ => rfl) (fun _ => rfl) nofun⟩

/-! What the classes say of TRAP, by its vector. -/

theorem destinations_trap (v : Vect) :
    destinations (.trap v) = if v = Config.vectGetc ∨ v = Config.vectIn then [0, 7] else [7] := rfl

theorem condRegister_trap (v : Vect) :
    condRegister (.trap v) = if v = Config.vectGetc ∨ v = Config.vectIn then some 0 else none := rfl

theorem halts_trap (v : Vect) : halts (.trap v) = (v == Config.vectHalt) := rfl

theorem emits_trap (v : Vect) :
    emits (.trap v) = (v == Config.vectOut || v == Config.vectPuts || v == Config.vectIn || v == Config.vectPutsp ||
      v == Config.vectHalt) := rfl

theorem readsString_trap (v : Vect) : readsString (.trap v) = (v == Config.vectPuts || v == Config.vectPutsp) := rfl

/-- TRAP with a vector of no routine is in none of the classes. -/
theorem classes_of_unrecognised {v : Vect} (h : recognisedVect v = false) :
    destinations (.trap v) = [7] ∧ condRegister (.trap v) = none ∧ halts (.trap v) = false ∧ emits (.trap v) = false ∧
      readsString (.trap v) = false := by
  simp only [recognisedVect, Bool.or_eq_false_iff, beq_eq_false_iff_ne] at h
  simp [destinations_trap, condRegister_trap, halts_trap, emits_trap, readsString_trap, h]

/-- A name is in the classes of its core instruction. -/
theorem classes_expand {i : Instr} (h : i.WellFormed = true) :
    destinations (expand i) = destinations i ∧ condRegister (expand i) = condRegister i ∧ halts (expand i) = halts i ∧
      emits (expand i) = emits i ∧ readsString (expand i) = readsString i := by
  cases i with
  | trapUnrecognised v => exact classes_of_unrecognised (by simpa [Instr.WellFormed] using h)
  | _ => exact ⟨rfl, rfl, rfl, rfl, rfl⟩

theorem redirects_expand (c : Cond) (i : Instr) : redirects c (expand i) = redirects c i := by
  cases i with
  | nop off => exact brTaken_none c
  | _ => rfl

theorem storeAddress_expand (s : State) (i : Instr) : storeAddress s (expand i) = storeAddress s i := by cases i <;> rfl

/-- What a name keeps, its core instruction keeps. -/
theorem InstrKeeps.core_of_name {i : Instr} {s t : State} (h : InstrKeeps i s t) (wellFormed : i.WellFormed = true) :
    InstrKeeps (expand i) s t := by
  obtain ⟨dest, cond, halt, emit, string⟩ := classes_expand wellFormed
  exact {
    registers := by rw [dest]; exact h.registers
    pc := by rw [redirects_expand]; exact h.pc
    condKept := by rw [cond]; exact h.condKept
    condSet := by rw [cond]; exact h.condSet
    run := by rw [halt]; exact h.run
    halted := by rw [halt]; exact h.halted
    output := h.output
    quiet := by rw [emit]; exact h.quiet
    wf := h.wf
    memory := by rw [storeAddress_expand]; exact h.memory
    trapMemory := by rw [isTrap_expand, string]; exact h.trapMemory
    input := by rw [string]; exact h.input }

/-- Every instruction answers a next state, and keeps what it should: a TRAP does as its name does. -/
theorem exec_next (i : Instr) (s : State) : ∃ t, exec i s = .next t ∧ InstrKeeps i s t := by
  by_cases h : ∃ v, i = .trap v
  · obtain ⟨v, rfl⟩ := h
    obtain ⟨j, wellFormed, core, name⟩ := exists_name_of_trap v
    obtain ⟨t, run, keeps⟩ := exec_keeps_of_ne_trap name s
    exact ⟨t, by rw [← core, exec_expand wellFormed, run], core ▸ keeps.core_of_name wellFormed⟩
  · exact exec_keeps_of_ne_trap (fun v hv => h ⟨v, hv⟩) s

theorem exec_keeps {i : Instr} {s t : State} (h : exec i s = .next t) : InstrKeeps i s t := by
  obtain ⟨u, run, keeps⟩ := exec_next i s
  rw [run] at h
  cases h
  exact keeps

/-! ### The statements about one instruction -/

/-- Settles O11: the clauses of `InstrKeeps` on COND. -/
theorem condIsWrittenByExactlyTheListedInstructions : Obligations.CondIsWrittenByExactlyTheListedInstructions := by
  intro i s t phase run
  have keeps := exec_keeps run
  cases h : condRegister i with
  | none => exact keeps.condKept h
  | some r => exact keeps.condSet r h phase

/-- Settles O53: the clause of `InstrKeeps` on the registers. -/
theorem onlyDestinationRegistersChange : Obligations.OnlyDestinationRegistersChange :=
  fun _ _ _ run => (exec_keeps run).registers

theorem storeAddress_of_isTrap {i : Instr} (h : isTrap i = true) (s : State) : storeAddress s i = none := by
  cases i with
  | st | sti | str => cases h
  | _ => rfl

/-- The strings are read by PUTS, PUTSP and their vectors. -/
theorem readsString_eq_false {i : Instr} (puts : i ≠ .puts) (putsp : i ≠ .putsp) (trapPuts : i ≠ .trap 0x22#8)
    (trapPutsp : i ≠ .trap 0x24#8) : readsString i = false := by
  cases i with
  | puts => exact absurd rfl puts
  | putsp => exact absurd rfl putsp
  | trap v =>
    have ne_puts : v ≠ Config.vectPuts := fun h => trapPuts (congrArg Instr.trap h)
    have ne_putsp : v ≠ Config.vectPutsp := fun h => trapPutsp (congrArg Instr.trap h)
    simp [readsString_trap, ne_puts, ne_putsp]
  | _ => rfl

/-- Settles O45: the clauses of `InstrKeeps`, for an instruction that stores at no address. -/
theorem trapRoutinesChangeOnlyWhatTheyList : Obligations.TrapRoutinesChangeOnlyWhatTheyList := by
  intro i s t trap run
  have keeps := exec_keeps run
  have pc : t.pc = s.pc := by
    obtain ⟨u, run', frame⟩ := exec_trap_frame trap s
    rw [run'] at run
    cases run
    exact frame.pc
  refine ⟨keeps.registers, pc, fun a ha => keeps.memory a ha ?_, fun puts putsp trapPuts trapPutsp a => ?_, keeps.condKept,
    keeps.run, keeps.quiet⟩
  · rw [storeAddress_of_isTrap trap]
    nofun
  · rw [keeps.trapMemory trap (readsString_eq_false puts putsp trapPuts trapPutsp)]

end Sys2Proof.Machine
end

section
/-! PROOFS. The step: what it runs, what a step can do, and the statements that follow from it (10_state.md R24 to R36). -/

namespace Sys2Proof.Machine

/-! ### What a step runs -/

/-- Settles O46: the fetch is the read at the PC, hook included, and the advance of the PC. -/
theorem aStepRunsTheDecodedInstruction : Obligations.AStepRunsTheDecodedInstruction := by
  rintro s i run phase rfl
  exact step_of_fetch run phase

/-- Settles O47: the fetch elsewhere than at 0xFE00 only advances the PC, and the word decodes to the closest name of the
instruction encoded, which runs as it does. -/
theorem anEncodedInstructionAtThePCRuns : Obligations.AnEncodedInstructionAtThePCRuns := by
  intro s i run phase wellFormed elsewhere word
  rw [step_of_fetch run phase, fetch_of_ne elsewhere, word, decode_encode, exec_resolve (expand_wellFormed i),
    exec_expand wellFormed]

/-- The word fetched at 0xFE00 is one of RTI or of BR with no bit, which do nothing. -/
theorem exec_fetch_at_kbsr {s : State} (pc : s.pc = Config.kbsr) :
    exec (decode (fetch s).1) (fetch s).2 = .next (fetch s).2 := by
  have rti : decode 0x8000#16 = .rti := by decide
  have nop : decode 0#16 = .nop 0#9 := by decide
  have word : (fetch s).1 = 0x8000#16 ∨ (fetch s).1 = 0#16 := by
    rw [fetch_eq, pc]
    exact s.memRead_kbsr
  rcases word with h | h <;> rw [h]
  · rw [rti, exec_rti]
  · rw [nop, exec_nop]

/-- Settles O48: the fetch is the poll, and the word polled is a no-op's. -/
theorem aFetchFromKbsrPollsAndDoesNothingElse : Obligations.AFetchFromKbsrPollsAndDoesNothingElse := by
  intro s run phase pc
  rw [step_of_fetch run phase, exec_fetch_at_kbsr pc, fetch_eq, pc]
  change Host.Outcome.next ((s.memRead Config.kbsr).2.jump 0xFE01#16) = _
  rw [s.memRead_at_kbsr]

/-- Settles O50: the first test of `step`. -/
theorem aHaltedCoreHasNoStep : Obligations.AHaltedCoreHasNoStep := by
  intro s halted
  simp [step, halted]

/-! ### What a step can do -/

/-- What a step keeps that goes on with a TRAP in progress (43_trap.md R122, R125, R127; log 4, log 5). -/
structure GoesOn (s t : State) : Prop where
  pc : t.pc = s.pc
  run : t.run = s.run
  oneHot : CondOneHot s.cond → CondOneHot t.cond
  output : s.output <+: t.output
  wf : s.mem.wf → t.mem.wf
  memory : SameMemoryExcept [Config.kbsr, Config.kbdr] s t
  input : ∃ looks taken, Takes looks taken s t ∧ (s.phase = .waitGetc ∨ s.phase = .waitIn → looks ≤ 1)

/-- R27 leaves one value for COND. -/
theorem CondFor.oneHot {v : Word} {c : Cond} (h : CondFor v c) : CondOneHot c := by
  obtain ⟨zero, negative, positive⟩ := h
  by_cases h0 : v = 0#16
  · exact .inr (.inl (zero h0))
  · cases hs : v.msb with
    | true => exact .inr (.inr (negative h0 hs))
    | false => exact .inl (positive h0 hs)

theorem CondSet.oneHot {r : Reg} {s t : State} (h : CondSet r s t) (hs : CondOneHot s.cond) : CondOneHot t.cond := by
  by_cases finished : t.phase = .fetch
  · exact (h.1 finished).oneHot
  · rw [h.2 finished]
    exact hs

theorem GoesOn.of_wait {s t : State} (h : WaitKeeps s t) : GoesOn s t where
  pc := h.pc
  run := h.run
  oneHot := h.cond.oneHot
  output := h.output
  wf := h.mem ▸ id
  memory := fun a _ => congrArg (·.read a) h.mem
  input := ⟨1, h.input.imp fun _ takes => ⟨takes, fun _ => le_rfl⟩⟩

theorem GoesOn.of_print {s t : State} (h : PrintKeeps s t) (printing : ¬ (s.phase = .waitGetc ∨ s.phase = .waitIn)) :
    GoesOn s t where
  pc := h.pc
  run := h.run
  oneHot := h.cond ▸ id
  output := h.output
  wf := h.wf
  memory := h.memory
  input := h.input.imp fun _ => Exists.imp fun _ takes => ⟨takes, fun waits => absurd waits printing⟩

/-- A running machine's step fetches and executes, or goes on with the TRAP in progress. -/
theorem step_running {s : State} (run : s.run = true) :
    (s.phase = .fetch ∧ step s = exec (decode (fetch s).1) (fetch s).2) ∨
      (s.phase ≠ .fetch ∧ ∃ t, step s = .next t ∧ GoesOn s t) := by
  cases phase : s.phase with
  | fetch => exact .inl ⟨rfl, step_of_fetch run phase⟩
  | waitGetc => exact .inr ⟨nofun, _, step_of_waitGetc run phase, .of_wait (getcRoutine_keeps s)⟩
  | waitIn => exact .inr ⟨nofun, _, step_of_waitIn run phase, .of_wait (inRoutine_keeps s)⟩
  | printing a =>
    have next : step s = .next (putsRoutine a s) := by simp [step, run, phase]
    exact .inr ⟨nofun, _, next, .of_print (s.print_keeps _ _ a) (by simp [phase])⟩
  | printingPacked a =>
    have next : step s = .next (putspRoutine a s) := by simp [step, run, phase]
    exact .inr ⟨nofun, _, next, .of_print (s.print_keeps _ _ a) (by simp [phase])⟩

/-- What a step can do, whole: it is one of a running machine, and executes what it fetched or goes on with a TRAP. -/
theorem step_cases {s t : State} (h : step s = .next t) :
    s.run = true ∧
      ((s.phase = .fetch ∧ exec (decode (fetch s).1) (fetch s).2 = .next t ∧
          InstrKeeps (decode (fetch s).1) (fetch s).2 t) ∨
        (s.phase ≠ .fetch ∧ GoesOn s t)) := by
  have run : s.run = true := by
    cases hr : s.run with
    | true => rfl
    | false => rw [aHaltedCoreHasNoStep s hr] at h; cases h
  refine ⟨run, ?_⟩
  rcases step_running run with ⟨phase, step⟩ | ⟨phase, u, step, keeps⟩ <;> rw [step] at h
  · exact .inl ⟨phase, h, exec_keeps h⟩
  · cases h
    exact .inr ⟨phase, keeps⟩

/-! ### The statements about a step -/

/-- Settles O49: every instruction answers a next state, and so does a step that goes on with a TRAP. -/
theorem everyInstructionAnswersANextState : Obligations.EveryInstructionAnswersANextState := by
  have total (i : Instr) (s : State) : ∃ t, exec i s = .next t := (exec_next i s).imp fun _ h => h.1
  refine ⟨total, fun s run => ?_⟩
  rcases step_running run with ⟨-, step⟩ | ⟨-, t, step, -⟩
  · rw [step]
    exact total _ _
  · exact ⟨t, step⟩

/-- Settles O51: RUN is 1 when a step begins, HALT clears it, and all else keeps it. -/
theorem onlyHaltClearsRun : Obligations.OnlyHaltClearsRun := by
  intro s t h
  obtain ⟨run, ⟨phase, -, keeps⟩ | ⟨phase, keeps⟩⟩ := step_cases h
  · change t.run = false ↔ s.phase = .fetch ∧ halts (decode (fetch s).1) = true
    cases halt : halts (decode (fetch s).1) with
    | true => simp [phase, (keeps.halted halt).1]
    | false => simp [keeps.run halt, run]
  · simp [phase, keeps.run, run]

/-- Settles O52: the fetch advances the PC, and what follows moves it only in the instructions that `redirects` names. -/
theorem onlyControlInstructionsRedirectThePC : Obligations.OnlyControlInstructionsRedirectThePC := by
  intro s t h
  obtain ⟨-, ⟨phase, -, keeps⟩ | ⟨phase, keeps⟩⟩ := step_cases h
  · refine ⟨fun _ straight => ?_, fun going => absurd phase going⟩
    have pc : t.pc = s.pc + 1#16 := keeps.pc (by rw [fetch_cond]; exact straight)
    rw [pc, BitVec.toNat_add]
    rfl
  · exact ⟨fun fetching => absurd fetching phase, fun _ => keeps.pc⟩

/-- The fetch keeps what a memory read does, but for the PC. -/
theorem fetch_memory (s : State) : SameMemoryExcept [Config.kbsr, Config.kbdr] s (fetch s).2 := (s.memRead_keeps s.pc).memory

/-- Settles O54: the fetch, the instruction and a TRAP in progress each keep the other words. -/
theorem onlyStoresAndTheHookChangeMemory : Obligations.OnlyStoresAndTheHookChangeMemory := by
  intro s t h a status data store
  have clear : a ∉ [Config.kbsr, Config.kbdr] := by
    simp only [List.mem_cons, List.not_mem_nil, or_false, not_or]
    exact ⟨status, data⟩
  obtain ⟨-, ⟨phase, -, keeps⟩ | ⟨-, keeps⟩⟩ := step_cases h
  · rw [keeps.memory a clear (store phase), fetch_memory s a clear]
  · exact keeps.memory a clear

/-- Settles O56: no part of a step withdraws output, and an instruction outside `emits` adds none. -/
theorem outputOnlyGrowsAndOnlyByTraps : Obligations.OutputOnlyGrowsAndOnlyByTraps := by
  refine ⟨fun s t h => ?_, fun i s t run => (exec_keeps run).quiet⟩
  obtain ⟨-, ⟨-, -, keeps⟩ | ⟨-, keeps⟩⟩ := step_cases h
  · exact fetch_output s ▸ keeps.output
  · exact keeps.output

/-- The fetch looks at the input at 0xFE00 alone, and then takes one character at most. -/
theorem fetch_takes (s : State) :
    ∃ looks taken, Takes looks taken s (fetch s).2 ∧ looks ≤ 1 ∧ (s.pc ≠ Config.kbsr → looks = 0) := by
  by_cases pc : s.pc = Config.kbsr
  · obtain ⟨looks, taken, one, takes⟩ := (s.memRead_keeps s.pc).input
    exact ⟨looks, taken, takes.congr ⟨rfl, rfl, rfl⟩ ⟨rfl, rfl, rfl⟩, one, absurd pc⟩
  · rw [fetch_of_ne pc]
    exact ⟨0, [], .refl ⟨rfl, rfl, rfl⟩, by decide, fun _ => rfl⟩

/-- Settles O55: the looks of the fetch come before those of the instruction, and a fetch that looks is one of a no-op. -/
theorem aStepTakesCharactersInOrder : Obligations.AStepTakesCharactersInOrder := by
  intro s t h
  obtain ⟨-, ⟨phase, run, keeps⟩ | ⟨phase, keeps⟩⟩ := step_cases h
  · obtain ⟨looks, taken, takes, one, elsewhere⟩ := fetch_takes s
    by_cases pc : s.pc = Config.kbsr
    · rw [exec_fetch_at_kbsr pc] at run
      cases run
      exact ⟨looks, taken, takes, fun _ => one⟩
    · obtain ⟨later, more, takes', one'⟩ := keeps.input
      refine ⟨looks + later, taken ++ more, takes.trans takes', fun kind => ?_⟩
      rw [elsewhere pc, Nat.zero_add]
      rcases kind with ⟨-, string⟩ | waiting | waiting
      · exact one' string
      · exact nomatch phase.symm.trans waiting
      · exact nomatch phase.symm.trans waiting
  · obtain ⟨looks, taken, takes, one⟩ := keeps.input
    exact ⟨looks, taken, takes, fun kind => one (kind.resolve_left fun h => phase h.1)⟩

/-- The condition an instruction leaves is one of the three, whichever register it comes from. -/
theorem InstrKeeps.cond_oneHot {i : Instr} {s t : State} (h : InstrKeeps i s t) (phase : s.phase = .fetch)
    (oneHot : CondOneHot s.cond) : CondOneHot t.cond := by
  cases hr : condRegister i with
  | none => exact h.condKept hr ▸ oneHot
  | some r => exact (h.condSet r hr phase).oneHot oneHot

/-- Settles O57: the fetch, the instruction and a TRAP in progress keep each clause; RUN falls to 0 at HALT alone, which
leaves the phase at the fetch. -/
theorem everyStepKeepsTheInvariant : Obligations.EveryStepKeepsTheInvariant := by
  intro s t inv h
  obtain ⟨run, ⟨phase, -, keeps⟩ | ⟨-, keeps⟩⟩ := step_cases h
  · have wf : (fetch s).2.mem.wf := (s.memRead_keeps s.pc).wf inv.mem_wf
    have fetching : (fetch s).2.phase = .fetch := (fetch_phase s).trans phase
    refine ⟨keeps.wf wf, keeps.cond_oneHot fetching ((fetch_cond s).symm ▸ inv.cond_oneHot), fun stopped => ?_⟩
    cases halt : halts (decode (fetch s).1) with
    | true => exact (keeps.halted halt).2.trans fetching
    | false => rw [keeps.run halt, fetch_run, run] at stopped; cases stopped
  · refine ⟨keeps.wf inv.mem_wf, keeps.oneHot inv.cond_oneHot, fun stopped => ?_⟩
    rw [keeps.run, run] at stopped
    cases stopped

end Sys2Proof.Machine
end

section
/-! PROOFS. The strings of PUTS and PUTSP (43_trap.md R125, R127; 70_reset_and_hazards.md R178 (d)). -/

namespace Sys2Proof.Machine

/-! ### The characters of a word, as the statements write them -/

theorem lowByte_eq (w : Word) : lowByte w = BitVec.ofNat 8 (w.toNat % 256) := by
  apply BitVec.eq_of_toNat_eq
  rw [toNat_lowByte, BitVec.toNat_ofNat, Nat.mod_mod]

theorem highByte_eq (w : Word) : highByte w = BitVec.ofNat 8 (w.toNat / 256) := by
  apply BitVec.eq_of_toNat_eq
  simp [highByte, Nat.shiftRight_eq_div_pow]

theorem highByte_eq_zero_iff (w : Word) : highByte w = 0#8 ↔ w.toNat / 256 = 0 := by
  have := w.isLt
  rw [highByte_eq, ← BitVec.toNat_inj, BitVec.toNat_ofNat, BitVec.toNat_ofNat, Nat.mod_eq_of_lt (by omega)]

theorem putsChars_eq : putsChars = fun w => [BitVec.ofNat 8 (w.toNat % 256)] :=
  funext fun w => congrArg (fun b => [b]) (lowByte_eq w)

theorem putspChars_eq : putspChars = fun w => BitVec.ofNat 8 (w.toNat % 256) ::
    if w.toNat / 256 = 0 then [] else [BitVec.ofNat 8 (w.toNat / 256)] := by
  funext w
  rw [putspChars, ← lowByte_eq, ← highByte_eq]
  simp only [highByte_eq_zero_iff]
  split <;> rfl

theorem putsChars_ne_nil (w : Word) : putsChars w ≠ [] := List.cons_ne_nil _ _

theorem putspChars_ne_nil (w : Word) : putspChars w ≠ [] := by
  rw [putspChars]
  split <;> exact List.cons_ne_nil _ _

/-! ### A string clear of 0xFE00 -/

/-- A string that ends before the scan comes to 0xFE00 is shorter than memory. -/
theorem length_lt_of_clear {a : Word} {n : Nat} (clear : ∀ k, k ≤ n → a + BitVec.ofNat 16 k ≠ Config.kbsr) : n < 65536 := by
  by_contra h
  have distance := (Config.kbsr - a).isLt
  exact clear (Config.kbsr - a).toNat (by omega) (add_distance a Config.kbsr)

/-- Printing such a string emits its characters and a flush, in one step, and changes nothing else. -/
theorem State.print_string {chars : Word → List Byte} {s : State} {a : Word} {ws : List Word} (more : Phase)
    (clear : ∀ k, k ≤ ws.length → a + BitVec.ofNat 16 k ≠ Config.kbsr)
    (words : ∀ k (h : k < ws.length), s.mem.read (a + BitVec.ofNat 16 k) = ws[k] ∧ ws[k] ≠ 0#16)
    (zero : s.mem.read (a + BitVec.ofNat 16 ws.length) = 0#16) :
    s.print chars more a = { (s.emit (ws.flatMap chars)).flush with phase := .fetch } := by
  have short : ws.length < s.scanLimit := by
    have := length_lt_of_clear clear
    have := s.le_scanLimit
    omega
  simp only [State.print, scan_string chars s.scanLimit a s ws clear words zero short, if_true]

/-- What the statements on strings say of the state after trap entry with `es` emitted. -/
theorem printed_frame {s t : State} {es : List ConsoleEvent} (phase : s.phase = .fetch)
    (h : t = { s.trapEntry with output := s.output ++ es, phase := .fetch }) :
    TrapFrame s t ∧ t.readReg 0 = s.readReg 0 ∧ t.cond = s.cond ∧ SameMemory s t ∧ SameInput s t ∧ SameMode s t := by
  subst h
  exact ⟨.of_trapEntry rfl rfl, s.readReg_trapEntry_zero, rfl, fun _ => rfl, ⟨rfl, rfl, rfl⟩, rfl, phase.symm⟩

/-- Settles O37: the string is printed from the state after trap entry, which has the same memory. -/
theorem putsEmitsTheLowBytesOfItsString : Obligations.PutsEmitsTheLowBytesOfItsString := by
  intro s ws phase clear words zero
  have printed := State.print_string (s := s.trapEntry) (chars := putsChars) (.printing (s.readReg 0)) clear words zero
  refine ⟨_, exec_puts s, ?_, printed_frame (es := (ws.flatMap putsChars).map .out ++ [.flush]) phase ?_⟩
  · rw [printed, putsChars_eq]
    simp [← List.map_eq_flatMap]
  · rw [printed]
    simp [State.emit, State.flush]

/-- Settles O38, as O37 with the characters of R127. -/
theorem putspEmitsBothBytesOfItsString : Obligations.PutspEmitsBothBytesOfItsString := by
  intro s ws phase clear words zero
  have printed := State.print_string (s := s.trapEntry) (chars := putspChars) (.printingPacked (s.readReg 0)) clear words zero
  refine ⟨_, exec_putsp s, ?_, printed_frame (es := (ws.flatMap putspChars).map .out ++ [.flush]) phase ?_⟩
  · rw [printed, putspChars_eq]
    simp [List.map_flatMap, apply_ite (List.map ConsoleEvent.out)]
  · rw [printed]
    simp [State.emit, State.flush]

/-! ### The loop from a state with the same memory and input -/

/-- What a memory read looks at. -/
def SameReads (s t : State) : Prop := t.mem = s.mem ∧ SameInput s t

/-- A read gives the same word and leaves the same memory and input, whatever the rest of the state is. -/
theorem SameReads.memRead {s t : State} (h : SameReads s t) (a : Word) :
    (t.memRead a).1 = (s.memRead a).1 ∧ SameReads (s.memRead a).2 (t.memRead a).2 := by
  obtain ⟨mem, kbq, arrivals, refill⟩ := h
  by_cases ha : a = Config.kbsr
  · subst ha
    have pending : t.pending = s.pending := by rw [State.pending, kbq, arrivals, refill, State.pending]
    rw [s.memRead_at_kbsr, t.memRead_at_kbsr]
    cases hp : s.pending with
    | nil =>
      rw [State.kbdHook_none hp, State.kbdHook_none (pending.trans hp)]
      simp [SameReads, SameInput, mem, arrivals, refill]
    | cons c rest =>
      rw [State.kbdHook_ready hp, State.kbdHook_ready (pending.trans hp)]
      simp [SameReads, SameInput, mem, arrivals, refill]
  · rw [s.memRead_ne ha, t.memRead_ne ha]
    exact ⟨congrArg (·.read a) mem, mem, kbq, arrivals, refill⟩

/-- Whether the loop ends is seen from memory and the input alone. -/
theorem PrintLoop.of_sameReads {chars : Word → List Byte} {a : Word} {s u : State} {bs : List Byte}
    (h : PrintLoop chars a s bs u) {t : State} (same : SameReads s t) : ∃ v, PrintLoop chars a t bs v := by
  induction h generalizing t with
  | @stop a s zero => exact ⟨_, .stop ((same.memRead a).1.trans zero)⟩
  | @word a s u bs word _ ih =>
    obtain ⟨value, later⟩ := same.memRead a
    obtain ⟨v, rest⟩ := ih later
    exact ⟨v, value ▸ .word (value ▸ word) rest⟩

/-! ### A string that never ends -/

/-- A scan that has not ended and has read a word has emitted. -/
theorem scan_emits {chars : Word → List Byte} (nonempty : ∀ w, chars w ≠ []) {n : Nat} (pos : 0 < n) {a : Word} {s : State}
    (going : (scan chars n a s).1 = false) :
    ∃ bs : List Byte, (scan chars n a s).2.output = s.output ++ bs.map .out ∧ bs ≠ [] := by
  obtain ⟨n, rfl⟩ := Nat.exists_eq_succ_of_ne_zero pos.ne'
  have word : (s.memRead a).1 ≠ 0#16 := fun zero => by
    rw [scan_stop chars n zero] at going
    cases going
  obtain ⟨bs, output⟩ := (scan_keeps chars n (a + 1#16) ((s.memRead a).2.emit (chars (s.memRead a).1))).output
  refine ⟨chars (s.memRead a).1 ++ bs, ?_, by simp [nonempty]⟩
  rw [scan_go chars n word, output]
  simp

/-- The scan of a step reads whole rounds of memory. -/
theorem State.ofNat_scanLimit (s : State) : BitVec.ofNat 16 s.scanLimit = 0#16 := by
  apply BitVec.eq_of_toNat_eq
  rw [s.scanLimit_eq, BitVec.toNat_ofNat]
  exact Nat.mul_mod_right 65536 _

/-- A read does not look at the phase. -/
theorem State.sameReads_withPhase (s : State) (p : Phase) : SameReads { s with phase := p } s := ⟨rfl, rfl, rfl, rfl⟩

/-- Where no scan of the loop from `u` ends, the loop does not end from there, whatever the phase. -/
theorem not_printLoop_withPhase {chars : Word → List Byte} {a : Word} {u : State}
    (going : ∀ n, (scan chars n a u).1 = false) (p : Phase) : ¬ ∃ bs t, PrintLoop chars a { u with phase := p } bs t := by
  rintro ⟨bs, t, loop⟩
  have ends := (scan_ends_iff chars a u).2 ⟨bs, loop.of_sameReads (u.sameReads_withPhase p)⟩
  rw [going] at ends
  cases ends

/-- The output is the same in any phase. -/
theorem exists_output_withPhase {s u : State} (h : ∃ bs : List Byte, u.output = s.output ++ bs.map .out ∧ bs ≠ []) (p : Phase) :
    ∃ bs : List Byte, ({ u with phase := p } : State).output = s.output ++ bs.map .out ∧ bs ≠ [] := h

/-- What a step prints of a loop that never ends: it emits, stays in the phase `more`, and the loop never ends from where it
leaves the scan. -/
theorem State.print_endless {chars : Word → List Byte} (nonempty : ∀ w, chars w ≠ []) {a : Word} {s : State} (more : Phase)
    (endless : ¬ ∃ bs t, PrintLoop chars a s bs t) :
    (s.print chars more a).phase = more ∧
      (∃ bs : List Byte, (s.print chars more a).output = s.output ++ bs.map .out ∧ bs ≠ []) ∧
      ¬ ∃ bs t, PrintLoop chars a (s.print chars more a) bs t := by
  have going (n : Nat) : (scan chars n a s).1 = false := by
    refine scan_endless chars a s ?_ n
    rwa [← Bool.not_eq_true, scan_ends_iff]
  have later (n : Nat) : (scan chars n a (scan chars s.scanLimit a s).2).1 = false := by
    have goes := ((scan_add_false chars s.scanLimit n a s).1 (going _)).2
    rwa [s.ofNat_scanLimit, BitVec.add_zero] at goes
  have emits := scan_emits nonempty (by have := s.le_scanLimit; omega) (going s.scanLimit)
  rw [State.print_of_endless endless]
  exact ⟨rfl, exists_output_withPhase emits more, not_printLoop_withPhase later more⟩

/-! ### The loop of PUTS and PUTSP -/

/-- Printing keeps the PC, COND, RUN and all of memory but the two keyboard words. -/
def KeepsButKeyboard (s t : State) : Prop :=
  t.pc = s.pc ∧ t.cond = s.cond ∧ t.run = s.run ∧ SameMemoryExcept [0xFE00#16, 0xFE02#16] s t

theorem ScanKeeps.keepsButKeyboard {s t : State} (h : ScanKeeps s t) : KeepsButKeyboard s t :=
  ⟨h.pc, h.cond, h.run, h.memory⟩

theorem PrintKeeps.keepsButKeyboard {s t : State} (h : PrintKeeps s t) : KeepsButKeyboard s t :=
  ⟨h.pc, h.cond, h.run, h.memory⟩

section
variable {chars : Word → List Byte} {more : Phase} {a : Word} {s : State}

/-- An instruction that prints from R0, as PUTS and PUTSP do, where its loop ends. -/
theorem exec_of_printLoop {i : Instr} {u : State} {bs : List Byte} (phase : s.phase = .fetch)
    (run : exec i s = .next (s.trapEntry.print chars more a)) (loop : PrintLoop chars a s.trapEntry bs u) :
    u.phase = .fetch ∧ u.regs = s.trapEntry.regs ∧ KeepsButKeyboard s u ∧
      exec i s = .next { u with output := s.output ++ bs.map .out ++ [.flush] } := by
  obtain ⟨keeps, -⟩ := loop.keeps
  have fetching : u.phase = .fetch := keeps.phase.trans phase
  refine ⟨fetching, keeps.regs, keeps.keepsButKeyboard, ?_⟩
  rw [run, State.print_of_printLoop loop, ← fetching]
  rfl

/-- The same instruction where its loop never ends. -/
theorem exec_of_endless {i : Instr} (nonempty : ∀ w, chars w ≠ [])
    (run : exec i s = .next (s.trapEntry.print chars more a)) (endless : ¬ ∃ bs u, PrintLoop chars a s.trapEntry bs u) :
    ∃ (t : State) (bs : List Byte), exec i s = .next t ∧ t.output = s.output ++ bs.map .out ∧ bs ≠ [] ∧
      t.regs = s.trapEntry.regs ∧ KeepsButKeyboard s t ∧ t.phase = more ∧ ¬ ∃ cs u, PrintLoop chars a t cs u := by
  obtain ⟨phase, ⟨bs, output, emitted⟩, still⟩ := State.print_endless nonempty more endless
  have keeps := s.trapEntry.print_keeps chars more a
  exact ⟨_, bs, run, output, emitted, keeps.regs, keeps.keepsButKeyboard, phase, still⟩

/-- A step that goes on printing, where the loop ends. -/
theorem step_of_printLoop {u : State} {bs : List Byte} (run : step s = .next (s.print chars more a))
    (loop : PrintLoop chars a s bs u) : u.regs = s.regs ∧ KeepsButKeyboard s u ∧
      step s = .next { u with output := s.output ++ bs.map .out ++ [.flush], phase := .fetch } := by
  obtain ⟨keeps, -⟩ := loop.keeps
  exact ⟨keeps.regs, keeps.keepsButKeyboard, by rw [run, State.print_of_printLoop loop]⟩

/-- The same step where the loop never ends. -/
theorem step_of_endless (nonempty : ∀ w, chars w ≠ []) (phase : s.phase = more)
    (run : step s = .next (s.print chars more a)) (endless : ¬ ∃ bs u, PrintLoop chars a s bs u) :
    ∃ (t : State) (bs : List Byte), step s = .next t ∧ t.output = s.output ++ bs.map .out ∧ bs ≠ [] ∧ t.phase = s.phase ∧
      t.regs = s.regs ∧ KeepsButKeyboard s t ∧ ¬ ∃ cs u, PrintLoop chars a t cs u := by
  obtain ⟨going, ⟨bs, output, emitted⟩, still⟩ := State.print_endless nonempty more endless
  have keeps := s.print_keeps chars more a
  exact ⟨_, bs, run, output, emitted, going.trans phase.symm, keeps.regs, keeps.keepsButKeyboard, still⟩

end

theorem step_of_printing {s : State} {a : Word} (run : s.run = true) (phase : s.phase = .printing a) :
    step s = .next (s.print putsChars (.printing a) a) := by
  simp [step, run, phase, putsRoutine]

theorem step_of_printingPacked {s : State} {a : Word} (run : s.run = true) (phase : s.phase = .printingPacked a) :
    step s = .next (s.print putspChars (.printingPacked a) a) := by
  simp [step, run, phase, putspRoutine]

/-- Settles O39: each instruction and each of its further steps prints the loop of R125 or R127, which ends or does not. -/
theorem putsAndPutspRunTheirLoop : Obligations.PutsAndPutspRunTheirLoop := by
  unfold Obligations.PutsAndPutspRunTheirLoop
  intro low both keeps
  have puts : low = putsChars := putsChars_eq.symm
  have putsp : both = putspChars := putspChars_eq.symm
  constructor
  · rintro i chars s phase (⟨rfl, rfl⟩ | ⟨rfl, rfl⟩)
    · rw [puts]
      refine ⟨fun bs u => exec_of_printLoop phase (exec_puts s), fun endless => ?_⟩
      obtain ⟨t, bs, run, output, emitted, regs, kept, going, still⟩ :=
        exec_of_endless putsChars_ne_nil (exec_puts s) endless
      exact ⟨t, bs, run, output, emitted, regs, kept, fun _ => going, nofun, still⟩
    · rw [putsp]
      refine ⟨fun bs u => exec_of_printLoop phase (exec_putsp s), fun endless => ?_⟩
      obtain ⟨t, bs, run, output, emitted, regs, kept, going, still⟩ :=
        exec_of_endless putspChars_ne_nil (exec_putsp s) endless
      exact ⟨t, bs, run, output, emitted, regs, kept, nofun, fun _ => going, still⟩
  · rintro chars a s run (⟨phase, rfl⟩ | ⟨phase, rfl⟩)
    · rw [puts]
      exact ⟨fun bs u => step_of_printLoop (step_of_printing run phase),
        step_of_endless putsChars_ne_nil phase (step_of_printing run phase)⟩
    · rw [putsp]
      exact ⟨fun bs u => step_of_printLoop (step_of_printingPacked run phase),
        step_of_endless putspChars_ne_nil phase (step_of_printingPacked run phase)⟩

end Sys2Proof.Machine
end

section
/-! PROOFS. Printing and the keyboard: strings with no zero word, strings across 0xFE00, and printing with nothing pending
(43_trap.md R125, R127; 20_memory.md R44; 70_reset_and_hazards.md R178 (d)). -/

namespace Sys2Proof.Machine

/-! ### No zero word -/

/-- That there is no zero word is seen from memory and the input alone. -/
theorem State.NoZeroWord.of_sameReads {s t : State} (h : s.NoZeroWord) (same : SameReads s t) : t.NoZeroWord := by
  obtain ⟨mem, kbq, arrivals, refill⟩ := same
  exact ⟨fun a ha => mem ▸ h.words a ha, arrivals.trans h.noArrivals, refill ▸ h.refill, kbq ▸ refill ▸ h.characters⟩

/-- A read brings no zero word into being: a poll finds a character, since typing never ends, and it is not 0. -/
theorem State.NoZeroWord.memRead {s : State} (h : s.NoZeroWord) (a : Word) : (s.memRead a).2.NoZeroWord := by
  by_cases ha : a = Config.kbsr
  · subst ha
    have stream : s.pending = s.kbq ++ s.refill := by rw [State.pending, h.noArrivals, List.headD_nil]
    rcases hp : s.pending with _ | ⟨c, rest⟩
    · rw [stream] at hp
      exact absurd (List.append_eq_nil_iff.1 hp).2 h.refill
    · obtain ⟨-, data, kbq, arrivals, refill⟩ := s.memRead_kbsr_ready hp
      have typed : ∀ d ∈ c :: rest, d ≠ 0#8 := hp ▸ stream ▸ h.characters
      refine ⟨fun b hb => ?_, by rw [arrivals, h.noArrivals]; rfl, refill ▸ h.refill, ?_⟩
      · by_cases hd : b = Config.kbdr
        · rw [hd, data]
          exact widen_ne_zero (typed c (by simp))
        · rw [(s.memRead_keeps Config.kbsr).memory b (by simp [hb, hd])]
          exact h.words b hb
      · rw [kbq, refill]
        intro d hd
        rcases List.mem_append.1 hd with hd | hd
        · exact typed d (by simp [hd])
        · exact h.characters d (by simp [hd])
  · rw [s.memRead_ne ha]
    exact h

theorem State.NoZeroWord.scan {s : State} (h : s.NoZeroWord) (chars : Word → List Byte) (n : Nat) (a : Word) :
    (scan chars n a s).2.NoZeroWord := by
  induction n generalizing a s with
  | zero => exact h
  | succ n ih =>
    by_cases zero : (s.memRead a).1 = 0#16
    · rw [scan_stop chars n zero]
      exact h.memRead a
    · rw [scan_go chars n zero]
      have emitted : ((s.memRead a).2.emit (chars (s.memRead a).1)).NoZeroWord :=
        (h.memRead a).of_sameReads ⟨rfl, rfl, rfl, rfl⟩
      exact ih emitted (a + 1#16)

theorem State.NoZeroWord.withPhase {s : State} (h : s.NoZeroWord) (p : Phase) :
    ({ s with phase := p } : State).NoZeroWord := h.of_sameReads ⟨rfl, rfl, rfl, rfl⟩

/-- Printing with no zero word in memory goes on for ever: more is emitted, and there is still no zero word. -/
theorem State.NoZeroWord.print {s : State} (h : s.NoZeroWord) {chars : Word → List Byte} (nonempty : ∀ w, chars w ≠ [])
    (more : Phase) (a : Word) :
    (s.print chars more a).NoZeroWord ∧ (s.print chars more a).run = s.run ∧ (s.print chars more a).phase = more ∧
      s.output.length < (s.print chars more a).output.length := by
  obtain ⟨phase, ⟨bs, output, emitted⟩, -⟩ := State.print_endless nonempty more (h.endless chars a)
  refine ⟨?_, (s.print_keeps chars more a).run, phase, ?_⟩
  · rw [State.print_of_endless (h.endless chars a)]
    exact (h.scan chars s.scanLimit a).withPhase more
  · rw [output, List.length_append, List.length_map]
    exact Nat.lt_add_of_pos_right (List.length_pos_iff.2 emitted)

/-- Settles O40: the instruction and every further step print a string with no zero word. -/
theorem aStringWithNoZeroWordPrintsForEver : Obligations.AStringWithNoZeroWordPrintsForEver := by
  constructor
  · intro i s printer noZero
    have entered : s.trapEntry.NoZeroWord := noZero.of_sameReads ⟨rfl, rfl, rfl, rfl⟩
    rcases printer with rfl | rfl
    · obtain ⟨still, run, phase, grows⟩ := entered.print putsChars_ne_nil (.printing (s.readReg 0)) (s.readReg 0)
      exact ⟨_, exec_puts s, still, run, grows, .inl phase⟩
    · obtain ⟨still, run, phase, grows⟩ := entered.print putspChars_ne_nil (.printingPacked (s.readReg 0)) (s.readReg 0)
      exact ⟨_, exec_putsp s, still, run, grows, .inr phase⟩
  · intro s a noZero running printing
    rcases printing with h | h
    · obtain ⟨still, run, phase, grows⟩ := noZero.print putsChars_ne_nil (.printing a) a
      exact ⟨_, step_of_printing running h, still, run.trans running, phase.trans h.symm, grows⟩
    · obtain ⟨still, run, phase, grows⟩ := noZero.print putspChars_ne_nil (.printingPacked a) a
      exact ⟨_, step_of_printingPacked running h, still, run.trans running, phase.trans h.symm, grows⟩

/-! ### A string across 0xFE00 -/

section
variable {chars : Word → List Byte} {a : Word} {s t : State} {bs : List Byte} {c : Byte} {rest : List Byte}

/-- A zero word elsewhere than at 0xFE00 ends the loop. -/
theorem PrintLoop.stop_ne (ha : a ≠ Config.kbsr) (zero : s.mem.read a = 0#16) : PrintLoop chars a s [] s := by
  have loop := PrintLoop.stop (chars := chars) (a := a) (s := s) (by rwa [s.memRead_ne ha])
  rwa [s.memRead_ne ha] at loop

/-- Any other word elsewhere than at 0xFE00 is emitted, and the loop goes on in the same state. -/
theorem PrintLoop.word_ne (ha : a ≠ Config.kbsr) (word : s.mem.read a ≠ 0#16) (loop : PrintLoop chars (a + 1#16) s bs t) :
    PrintLoop chars a s (chars (s.mem.read a) ++ bs) t := by
  have first := PrintLoop.word (chars := chars) (a := a) (s := s) (bs := bs) (t := t) (by rwa [s.memRead_ne ha])
    (by rwa [s.memRead_ne ha])
  rwa [s.memRead_ne ha] at first

/-- At 0xFE00 with a character pending the loop emits 0x8000 and goes on after the poll. -/
theorem PrintLoop.poll (pending : s.pending = c :: rest)
    (loop : PrintLoop chars 0xFE01#16 (s.memRead Config.kbsr).2 bs t) :
    PrintLoop chars Config.kbsr s (chars 0x8000#16 ++ bs) t := by
  obtain ⟨status, -, -⟩ := s.memRead_kbsr_ready pending
  exact status ▸ PrintLoop.word (by rw [status]; decide) loop

/-- A word that is not the keyboard's is the same after the poll. -/
theorem State.read_after_poll (ha : a ∉ [Config.kbsr, Config.kbdr]) :
    (s.memRead Config.kbsr).2.mem.read a = s.mem.read a := (s.memRead_keeps Config.kbsr).memory a ha

/-- The loop from 0xFE00 to a zero word at 0xFE01. -/
theorem printLoop_kbsr_stop (pending : s.pending = c :: rest) (zero : s.mem.read 0xFE01#16 = 0#16) :
    PrintLoop chars Config.kbsr s (chars 0x8000#16) (s.memRead Config.kbsr).2 := by
  have stop : PrintLoop chars 0xFE01#16 (s.memRead Config.kbsr).2 [] (s.memRead Config.kbsr).2 :=
    .stop_ne (by decide) ((State.read_after_poll (by decide)).trans zero)
  simpa using PrintLoop.poll pending stop

/-- The loop from 0xFE00 through 0xFE02, where it reads the character taken, to a zero word at 0xFE03. -/
theorem printLoop_through_kbdr (pending : s.pending = c :: rest) (word : s.mem.read 0xFE01#16 ≠ 0#16) (typed : c ≠ 0#8)
    (zero : s.mem.read 0xFE03#16 = 0#16) :
    PrintLoop chars Config.kbsr s (chars 0x8000#16 ++ (chars (s.mem.read 0xFE01#16) ++ (chars (widen c) ++ [])))
      (s.memRead Config.kbsr).2 := by
  obtain ⟨-, data, -⟩ := s.memRead_kbsr_ready pending
  have first : (s.memRead Config.kbsr).2.mem.read 0xFE01#16 = s.mem.read 0xFE01#16 := State.read_after_poll (by decide)
  have atFE03 : PrintLoop chars 0xFE03#16 (s.memRead Config.kbsr).2 [] (s.memRead Config.kbsr).2 :=
    .stop_ne (by decide) ((State.read_after_poll (by decide)).trans zero)
  have atFE02 : PrintLoop chars Config.kbdr (s.memRead Config.kbsr).2 (chars (widen c) ++ []) (s.memRead Config.kbsr).2 :=
    data ▸ .word_ne (by decide) (by rw [data]; exact widen_ne_zero typed) atFE03
  exact .poll pending (first ▸ .word_ne (by decide) (first ▸ word) atFE02)

end

/-- What printing from 0xFE00 leaves where its loop ends right after the poll, but for what it has emitted: the poll has
looked at the input, and 0x8000 and the character are in the keyboard words. -/
theorem polled_frame {s : State} {c : Byte} {rest : List Byte} (pending : s.pending = c :: rest) (out : List ConsoleEvent) :
    let t : State := { (s.trapEntry.memRead Config.kbsr).2 with output := out, phase := .fetch }
    LookedAt rest s t ∧ t.mem.read 0xFE00#16 = 0x8000#16 ∧ (t.mem.read 0xFE02#16).toNat = c.toNat ∧ t.phase = .fetch := by
  have entered : s.trapEntry.pending = c :: rest := pending
  obtain ⟨status, data, kbq, arrivals, refill⟩ := s.trapEntry.memRead_kbsr_ready entered
  exact ⟨⟨kbq, arrivals, refill⟩, status, (congrArg BitVec.toNat data).trans (widen_toNat c), rfl⟩

/-- The low byte of a widened character is the character. -/
theorem lowByte_widen (c : Byte) : lowByte (widen c) = c := by
  apply BitVec.eq_of_toNat_eq
  rw [toNat_lowByte, widen_toNat]
  exact Nat.mod_eq_of_lt c.isLt

theorem putsChars_status : putsChars 0x8000#16 = [0#8] := by decide

theorem putspChars_status : putspChars 0x8000#16 = [0#8, 0x80#8] := by decide

/-- Settles O41: the loop is run by hand from 0xFE00, and printing is the loop. -/
theorem aStringAcrossKbsrReadsTheKeyboard : Obligations.AStringAcrossKbsrReadsTheKeyboard := by
  intro s c rest phase start pending
  have entered : s.trapEntry.pending = c :: rest := pending
  change s.readReg 0 = Config.kbsr at start
  have puts := exec_puts s
  have putsp := exec_putsp s
  rw [start] at puts putsp
  refine ⟨fun zero => ⟨?_, ?_⟩, fun word typed zero => ?_⟩
  · rw [State.print_of_printLoop (printLoop_kbsr_stop entered zero)] at puts
    exact ⟨_, puts, by simp [putsChars_status], polled_frame pending _⟩
  · rw [State.print_of_printLoop (printLoop_kbsr_stop entered zero)] at putsp
    exact ⟨_, putsp, by simp [putspChars_status], polled_frame pending _⟩
  · rw [State.print_of_printLoop (printLoop_through_kbdr entered word typed zero)] at puts
    obtain ⟨looked, -, -, fetching⟩ := polled_frame pending _
    refine ⟨_, puts, looked, fetching, ?_⟩
    simp only [putsChars_status]
    simp [putsChars, lowByte_widen, ← lowByte_eq]

/-! ### Printing with nothing pending -/

/-- With nothing pending a scan takes nothing and changes the status word at most. -/
theorem scan_idle (chars : Word → List Byte) (n : Nat) (a : Word) {s : State} (idle : s.pending = []) :
    (scan chars n a s).2.kbq = [] ∧ SameMemoryExcept [Config.kbsr] s (scan chars n a s).2 := by
  induction n generalizing a s with
  | zero => exact ⟨(List.append_eq_nil_iff.1 idle).1, fun _ _ => rfl⟩
  | succ n ih =>
    by_cases ha : a = Config.kbsr
    · subst ha
      have hook := State.kbdHook_none idle
      have zero : (s.memRead Config.kbsr).1 = 0#16 := by
        rw [s.memRead_at_kbsr, hook]
        exact State.read_memWrite_same _ _ _
      rw [scan_stop chars n zero, s.memRead_at_kbsr, hook]
      exact ⟨rfl, fun b hb => State.read_memWrite_ne _ _ (by simpa using hb)⟩
    · by_cases zero : (s.memRead a).1 = 0#16
      · rw [scan_stop chars n zero, s.memRead_ne ha]
        exact ⟨(List.append_eq_nil_iff.1 idle).1, fun _ _ => rfl⟩
      · rw [scan_go chars n zero, s.memRead_ne ha]
        have emitted : (s.emit (chars (s.mem.read a))).pending = [] := idle
        exact ih (a + 1#16) emitted

/-- What a scan with nothing pending leaves, once its output is flushed and the instruction over. -/
theorem idle_flushed {s u : State} (kept : u.kbq = [] ∧ SameMemoryExcept [Config.kbsr] s u)
    (emits : ∃ bs : List Byte, u.output = s.output ++ bs.map .out) :
    let t : State := { u.flush with phase := .fetch }
    t.phase = .fetch ∧ t.kbq = [] ∧ SameMemoryExcept [0xFE00#16] s t ∧
      ∃ bs : List Byte, t.output = s.output ++ bs.map .out ++ [.flush] :=
  ⟨rfl, kept.1, kept.2, emits.imp fun _ output => congrArg (· ++ [ConsoleEvent.flush]) output⟩

/-- With nothing pending printing ends in its step. -/
theorem State.print_idle {s : State} (chars : Word → List Byte) (more : Phase) (a : Word) (idle : s.pending = []) :
    (s.print chars more a).phase = .fetch ∧ (s.print chars more a).kbq = [] ∧
      SameMemoryExcept [0xFE00#16] s (s.print chars more a) ∧
      ∃ bs : List Byte, (s.print chars more a).output = s.output ++ bs.map .out ++ [.flush] := by
  have distance := (Config.kbsr - a).isLt
  have ends : (scan chars s.scanLimit a s).1 = true :=
    scan_stops_of_not_pending chars s.scanLimit a s idle (by have := s.le_scanLimit; omega)
  rcases s.print_cases chars more a with ⟨-, print⟩ | ⟨going, -⟩
  · rw [print]
    exact idle_flushed (scan_idle chars s.scanLimit a idle) (scan_keeps chars s.scanLimit a s).output
  · rw [ends] at going
    cases going

/-- Settles O42: the state after trap entry has nothing pending either. -/
theorem printingFinishesWhenNoCharacterIsPending : Obligations.PrintingFinishesWhenNoCharacterIsPending := by
  intro i s printer pending
  have idle : s.trapEntry.pending = [] := pending
  have finishes (chars : Word → List Byte) (more : Phase)
      (run : exec i s = .next (s.trapEntry.print chars more (s.readReg 0))) :
      ∃ (t : State) (bs : List Byte), exec i s = .next t ∧ t.phase = .fetch ∧ TrapFrame s t ∧ t.readReg 0 = s.readReg 0 ∧
        t.output = s.output ++ bs.map .out ++ [.flush] ∧ t.kbq = [] ∧ SameMemoryExcept [0xFE00#16] s t := by
    obtain ⟨phase, kbq, memory, bs, output⟩ := State.print_idle chars more (s.readReg 0) idle
    have keeps := s.trapEntry.print_keeps chars more (s.readReg 0)
    exact ⟨_, bs, run, phase, .of_print keeps, (State.readReg_congr keeps.regs 0).trans s.readReg_trapEntry_zero, output, kbq,
      memory⟩
  rcases printer with rfl | rfl
  · exact finishes _ _ (exec_puts s)
  · exact finishes _ _ (exec_putsp s)

end Sys2Proof.Machine
end

section
/-! PROOFS. Only BR reads COND (10_state.md R29). -/

namespace Sys2Proof.Machine

/-- The state with another COND. -/
def State.withCond (s : State) (c : Cond) : State := { s with cond := c }

/-! ### The shared operations with another COND -/

/-- A register write that sets the condition forgets the old one. -/
theorem State.writeRegCC_withCond (s : State) (c : Cond) (r : Reg) (v : Word) :
    (s.withCond c).writeRegCC r v = s.writeRegCC r v := rfl

theorem State.memRead_withCond (s : State) (c : Cond) (a : Word) :
    (s.withCond c).memRead a = ((s.memRead a).1, (s.memRead a).2.withCond c) := by
  by_cases h : a = Config.kbsr
  · subst h
    rw [State.memRead_at_kbsr, State.memRead_at_kbsr]
    cases hp : s.pending with
    | nil =>
      rw [State.kbdHook_none hp, State.kbdHook_none (s := s.withCond c) hp]
      rfl
    | cons d rest =>
      rw [State.kbdHook_ready hp, State.kbdHook_ready (s := s.withCond c) hp]
      rfl
  · rw [State.memRead_ne _ h, State.memRead_ne _ h]
    rfl

theorem State.load_withCond (s : State) (c : Cond) (dr : Reg) (a : Word) : (s.withCond c).load dr a = s.load dr a := by
  rw [State.load, State.memRead_withCond, State.writeRegCC_withCond, State.load]

theorem scan_withCond (chars : Word → List Byte) (n : Nat) (a : Word) (s : State) (c : Cond) :
    scan chars n a (s.withCond c) = ((scan chars n a s).1, (scan chars n a s).2.withCond c) := by
  induction n generalizing a s with
  | zero => rfl
  | succ n ih =>
    have read := s.memRead_withCond c a
    by_cases h : (s.memRead a).1 = 0#16
    · rw [scan_stop chars n (by rw [read]; exact h), scan_stop chars n h, read]
    · rw [scan_go chars n (by rw [read]; exact h), scan_go chars n h, read]
      exact ih (a + 1#16) ((s.memRead a).2.emit (chars (s.memRead a).1))

theorem State.scanLimit_withCond (s : State) (c : Cond) : (s.withCond c).scanLimit = s.scanLimit := by
  rw [State.scanLimit_eq, State.scanLimit_eq]
  rfl

/-- What printing makes of the result of its scan. -/
def printed (more : Phase) (r : Bool × State) : State :=
  if r.1 then { r.2.flush with phase := .fetch } else { r.2 with phase := more }

theorem State.print_eq_printed (s : State) (chars : Word → List Byte) (more : Phase) (a : Word) :
    s.print chars more a = printed more (scan chars s.scanLimit a s) := rfl

theorem printed_withCond (more : Phase) (r : Bool × State) (c : Cond) :
    printed more (r.1, r.2.withCond c) = (printed more r).withCond c := by
  obtain ⟨ends, t⟩ := r
  cases ends <;> rfl

theorem State.print_withCond (s : State) (c : Cond) (chars : Word → List Byte) (more : Phase) (a : Word) :
    (s.withCond c).print chars more a = (s.print chars more a).withCond c := by
  rw [State.print_eq_printed, State.scanLimit_withCond, scan_withCond, printed_withCond, ← State.print_eq_printed]

/-- GETC and IN after trap entry: COND comes from the character taken, and stays while they wait. -/
theorem getcRoutine_withCond (s : State) (c : Cond) :
    (getcRoutine (s.withCond c) = getcRoutine s ∧ (getcRoutine s).phase = .fetch) ∨
      (getcRoutine (s.withCond c) = (getcRoutine s).withCond c ∧ (getcRoutine s).phase ≠ .fetch) := by
  cases h : s.pending with
  | nil =>
    rw [getcRoutine_idle h, getcRoutine_idle (s := s.withCond c) h]
    exact .inr ⟨rfl, nofun⟩
  | cons d rest =>
    rw [getcRoutine_ready h, getcRoutine_ready (s := s.withCond c) h]
    exact .inl ⟨rfl, rfl⟩

theorem inRoutine_withCond (s : State) (c : Cond) :
    (inRoutine (s.withCond c) = inRoutine s ∧ (inRoutine s).phase = .fetch) ∨
      (inRoutine (s.withCond c) = (inRoutine s).withCond c ∧ (inRoutine s).phase ≠ .fetch) := by
  cases h : s.pending with
  | nil =>
    rw [inRoutine_idle h, inRoutine_idle (s := s.withCond c) h]
    exact .inr ⟨rfl, nofun⟩
  | cons d rest =>
    rw [inRoutine_ready h, inRoutine_ready (s := s.withCond c) h]
    exact .inl ⟨rfl, rfl⟩

/-! ### The instructions with another COND -/

/-- From `s` with COND `c` the instruction answers the same state `t`, having set COND, or `t` with COND `c`, having left it. -/
def CondBlind (i : Instr) (c : Cond) (s t : State) : Prop :=
  (exec i (s.withCond c) = .next t ∧ condRegister i ≠ none ∧ (s.phase = .fetch → t.phase = .fetch)) ∨
    (exec i (s.withCond c) = .next (t.withCond c) ∧ (condRegister i = none ∨ t.phase ≠ .fetch))

theorem CondBlind.of_set {i : Instr} {c : Cond} {s t : State} (run : exec i (s.withCond c) = .next t)
    (cond : condRegister i ≠ none) (phase : t.phase = s.phase) : CondBlind i c s t :=
  .inl ⟨run, cond, phase.trans⟩

theorem CondBlind.of_kept {i : Instr} {c : Cond} {s t : State} (run : exec i (s.withCond c) = .next (t.withCond c))
    (cond : condRegister i = none) : CondBlind i c s t := .inr ⟨run, .inl cond⟩

/-- Every instruction but BR, and but TRAP itself, is blind to COND. -/
theorem exec_condBlind_of_ne_trap {i : Instr} (branch : ∀ n z p off, i ≠ .br n z p off) (name : ∀ v, i ≠ .trap v) (c : Cond)
    (s : State) : ∃ t, exec i s = .next t ∧ CondBlind i c s t := by
  cases i with
  | br n z p off => exact absurd rfl (branch n z p off)
  | trap v => exact absurd rfl (name v)
  | nop off => exact ⟨s, exec_nop off s, .of_kept (exec_nop off _) rfl⟩
  -- Without a read or a wait both answers compute.
  | rti | res | jmp | ret | jsr | jsrr | st | str | out | halt | trapUnrecognised => exact ⟨_, rfl, .of_kept rfl rfl⟩
  | addReg | addImm | andReg | andImm | notReg | lea => exact ⟨_, rfl, .of_set rfl nofun rfl⟩
  | ld dr off =>
    have run := exec_ld dr off (s.withCond c)
    rw [State.load_withCond] at run
    exact ⟨_, exec_ld dr off s, .of_set run nofun (by simp [State.load])⟩
  | ldr dr base off =>
    have run := exec_ldr dr base off (s.withCond c)
    rw [State.load_withCond] at run
    exact ⟨_, exec_ldr dr base off s, .of_set run nofun (by simp [State.load])⟩
  | ldi dr off =>
    have run := exec_ldi dr off (s.withCond c)
    rw [State.memRead_withCond, State.load_withCond] at run
    exact ⟨_, exec_ldi dr off s, .of_set run nofun (by simp [State.load])⟩
  | sti sr off =>
    have run := exec_sti sr off (s.withCond c)
    rw [State.memRead_withCond] at run
    exact ⟨_, exec_sti sr off s, .of_kept run rfl⟩
  | puts =>
    have print := s.trapEntry.print_withCond c putsChars (.printing (s.readReg 0)) (s.readReg 0)
    exact ⟨_, exec_puts s, .of_kept ((exec_puts _).trans (congrArg Host.Outcome.next print)) rfl⟩
  | putsp =>
    have print := s.trapEntry.print_withCond c putspChars (.printingPacked (s.readReg 0)) (s.readReg 0)
    exact ⟨_, exec_putsp s, .of_kept ((exec_putsp _).trans (congrArg Host.Outcome.next print)) rfl⟩
  | getc =>
    refine ⟨_, exec_getc s, ?_⟩
    rcases getcRoutine_withCond s.trapEntry c with ⟨same, finished⟩ | ⟨other, waits⟩
    · exact .inl ⟨congrArg Host.Outcome.next same, nofun, fun _ => finished⟩
    · exact .inr ⟨congrArg Host.Outcome.next other, .inr waits⟩
  | inChar =>
    refine ⟨_, exec_inChar s, ?_⟩
    rcases inRoutine_withCond (s.trapEntry.emit Config.inPrompt) c with ⟨same, finished⟩ | ⟨other, waits⟩
    · exact .inl ⟨congrArg Host.Outcome.next same, nofun, fun _ => finished⟩
    · exact .inr ⟨congrArg Host.Outcome.next other, .inr waits⟩

/-- The same of TRAP, under its name. -/
theorem exec_condBlind {i : Instr} (branch : ∀ n z p off, i ≠ .br n z p off) (c : Cond) (s : State) :
    ∃ t, exec i s = .next t ∧ CondBlind i c s t := by
  by_cases h : ∃ v, i = .trap v
  · obtain ⟨v, rfl⟩ := h
    obtain ⟨j, wellFormed, core, name⟩ := exists_name_of_trap v
    have noBranch : ∀ n z p off, j ≠ .br n z p off := fun n z p off hj => by
      rw [hj] at core
      cases core
    obtain ⟨-, cond, -⟩ := classes_expand wellFormed
    obtain ⟨t, run, blind⟩ := exec_condBlind_of_ne_trap noBranch name c s
    rw [CondBlind, ← exec_expand wellFormed, ← cond, core] at blind
    exact ⟨t, by rw [← core, exec_expand wellFormed, run], blind⟩
  · exact exec_condBlind_of_ne_trap branch (fun v hv => h ⟨v, hv⟩) c s

/-- Settles O12: in either case of `CondBlind` the two answers differ in COND at most. -/
theorem onlyBranchesReadCond : Obligations.OnlyBranchesReadCond := by
  intro i s t c branch run
  obtain ⟨u, run', blind⟩ := exec_condBlind branch c s
  obtain rfl : u = t := Host.Outcome.next.inj (run'.symm.trans run)
  rcases blind with ⟨same, sets, stays⟩ | ⟨other, keeps⟩
  · refine ⟨u, same, rfl, fun _ _ _ _ => rfl, fun left => ?_⟩
    rcases left with none | ⟨fetching, going⟩
    · exact absurd none sets
    · exact absurd (stays fetching) going
  · refine ⟨u.withCond c, other, rfl, fun r sets _ finished => ?_, fun _ => rfl⟩
    rcases keeps with none | going
    · exact nomatch none.symm.trans sets
    · exact absurd finished going

end Sys2Proof.Machine
end

section
/-! PROOFS. Reset and loading (10_state.md R37; 70_reset_and_hazards.md R170 to R174). -/

namespace Sys2Proof.Machine

/-- Settles O58: memory is empty, COND is Z and RUN is 1. -/
theorem resetMeetsTheInvariant : Obligations.ResetMeetsTheInvariant := by
  have reset (gpr : Vector Word 8) : (State.resetWith gpr).Inv := ⟨Memory.wf_nil, .inr (.inl rfl), nofun⟩
  exact ⟨reset Config.gprReset, reset⟩

/-- Settles O59: the fields as reset gives them, and a step on the zero word, which is NOP's. -/
theorem resetLeavesTheStatedValues : Obligations.ResetLeavesTheStatedValues := by
  intro gpr s
  have nop : decode 0#16 = .nop 0#9 := by decide
  have first : step (s.hostReset gpr) = .next ((s.hostReset gpr).jump 0x3001#16) := by
    have elsewhere : (s.hostReset gpr).pc ≠ Config.kbsr := by
      change Config.pcStart ≠ Config.kbsr
      decide
    rw [step_of_fetch rfl rfl, fetch_of_ne elsewhere]
    change exec (decode 0#16) _ = _
    rw [nop, exec_nop]
    rfl
  exact ⟨rfl, rfl, rfl, Memory.read_nil, rfl, fun _ => rfl, ⟨rfl, rfl, rfl⟩, first⟩

/-- Loading words changes memory only. -/
theorem State.loadWords_frame (s : State) (a : Nat) (ws : List Word) : { s.loadWords a ws with mem := s.mem } = s := by
  induction ws generalizing s a with
  | nil => rfl
  | cons w ws ih =>
    rw [State.loadWords]
    split
    · have rest := ih (s.loadWord (BitVec.ofNat _ a) w) (a + 1)
      exact congrArg (fun u : State => { u with mem := s.mem }) rest
    · rfl

/-- Words are placed from `a` upward, as many addresses as there are words. -/
theorem State.read_loadWords_outside (s : State) (a : Nat) (ws : List Word) (b : Word)
    (outside : b.toNat < a ∨ a + ws.length ≤ b.toNat) : (s.loadWords a ws).mem.read b = s.mem.read b := by
  induction ws generalizing s a with
  | nil => rfl
  | cons w ws ih =>
    rw [List.length_cons] at outside
    rw [State.loadWords]
    split
    · rename_i space
      have other : b ≠ BitVec.ofNat _ a := fun e => by
        have := congrArg BitVec.toNat e
        rw [BitVec.toNat_ofNat, Nat.mod_eq_of_lt space] at this
        omega
      rw [ih _ (a + 1) (by omega), State.loadWord, s.read_memWrite_ne w other]
    · rfl

/-- The `k`-th word is placed at the `k`-th address, up to the top of the space. -/
theorem State.read_loadWords (s : State) (a : Nat) (ws : List Word) (k : Nat) (hk : k < ws.length) (space : a + k < 65536) :
    (s.loadWords a ws).mem.read (BitVec.ofNat 16 (a + k)) = ws[k] := by
  induction ws generalizing s a k with
  | nil => cases hk
  | cons w ws ih =>
    rw [State.loadWords, if_pos (show a < Config.memWords by simp only [Config.memWords]; omega)]
    cases k with
    | zero =>
      rw [State.read_loadWords_outside _ _ _ _ (by rw [BitVec.toNat_ofNat]; omega)]
      exact State.read_memWrite_same _ _ _
    | succ k =>
      have next := ih (s.loadWord (BitVec.ofNat _ a) w) (a + 1) k (by simpa using hk) (by omega)
      rwa [Nat.add_right_comm, Nat.add_assoc] at next

/-- Settles O60: loading an image is loading its words from its origin. -/
theorem anImageIsPlacedFromItsOrigin : Obligations.AnImageIsPlacedFromItsOrigin := by
  intro s origin ws t
  have fields {α : Type} (f : State → α) := congrArg f (s.loadWords_frame origin.toNat ws)
  exact ⟨s.read_loadWords origin.toNat ws, s.read_loadWords_outside origin.toNat ws, fields State.regs, fields State.pc,
    fields State.cond, ⟨⟨fields State.kbq, fields State.arrivals, fields State.refill⟩, fields State.output⟩,
    fields State.run, fields State.phase⟩

end Sys2Proof.Machine
end
